-- ==== Sys2Proof/Word.lean ====
section
/-! DEFINITION. The block's word types (spec/30_encoding.md R50, spec/00_scope.md R8 and R10). -/

namespace Sys2Proof

/-- One 40-bit event word EV[39:0] (R50). -/
abbrev EventWord := BitVec 40

/-- The TS field EV[39:8], and the room T_LAST has: TS_WIDTH is at most 32 (R7, R54). -/
abbrev Timestamp := BitVec 32

/-- A timeout generation tag (R28); TAG_WIDTH is fixed at 4 (R7). -/
abbrev Tag := BitVec 4

/-- One byte of a frame (R10). -/
abbrev Byte := BitVec 8

end Sys2Proof
end

