-- ==== Sys2Proof/Config.lean ====
section
/-! DEFINITION. The implementation parameters of spec/00_scope.md R7 and the window table of
spec/40_classifier.md R71. -/

namespace Sys2Proof

/-- One inclusive integer window [lo, hi] in µs (R71). -/
structure Window where
  lo : Nat
  hi : Nat
deriving DecidableEq, Repr

/-- The interval categories (R11). "invalid/timeout" is no category: it is the case where none matches (R72). -/
inductive Category where
  | lp | ls | rs | bp | b0 | b1
deriving DecidableEq, Repr

/-- The parameter WINDOWS: one window per category (R7, R71). -/
structure Windows where
  lp : Window
  ls : Window
  rs : Window
  bp : Window
  b0 : Window
  b1 : Window
deriving DecidableEq, Repr

/-- The window of a category. -/
def Windows.get (w : Windows) : Category → Window
  | .lp => w.lp
  | .ls => w.ls
  | .rs => w.rs
  | .bp => w.bp
  | .b0 => w.b0
  | .b1 => w.b1

/-- The default window table of R71. -/
def Windows.default : Windows where
  lp := ⟨6750, 11250⟩
  ls := ⟨3375, 5625⟩
  rs := ⟨1688, 2812⟩
  bp := ⟨422, 703⟩
  b0 := ⟨422, 703⟩
  b1 := ⟨1266, 2109⟩

/-- N2 of R71: a category's nominal value in half-microseconds. -/
def Category.nominalHalfUs : Category → Nat
  | .lp => 18000
  | .ls => 9000
  | .rs => 4500
  | .bp => 1125
  | .b0 => 1125
  | .b1 => 3375

/-- The build parameters the block reads (R7). -/
structure Params where
  /-- TS_WIDTH, W: the edge counter wraps at 2^W µs (R7, D3). -/
  tsWidth : Nat
  /-- WINDOWS (R7, R71, D5). -/
  windows : Windows
  /-- TIMEOUT_MS: the delay every RESTART asks for; no rule of the block computes with it (R63, R110). -/
  timeoutMs : Nat
deriving DecidableEq, Repr

/-- The defaults of R7. -/
def Params.default : Params where
  tsWidth := 32
  windows := Windows.default
  timeoutMs := 12

/-- FRAME_BITS, fixed at 32 (R7). -/
abbrev frameBits : Nat := 32

/-- ARBITRATION of R7: what the environment presents first when an edge and a due timeout are pending together (R140). -/
inductive Arbitration where
  | edgeFirst | timeoutFirst | either
deriving DecidableEq, Repr

/-- The two environment parameters of R7, which have no default and which no rule of the block reads. -/
structure EnvParams where
  /-- TIMER_LATENCY in µs, how long after TIMEOUT_MS a TIMEOUT may come; none is unbounded (R7, R137). R7 takes any bound >= 0 ms
  and does not say that it is a whole number: a fraction of a millisecond is allowed here, down to the µs of true time
  (DESIGN CHOICE, log 16). -/
  latencyUs : Option Nat
  /-- ARBITRATION (R7, R140). -/
  arbitration : Arbitration
deriving DecidableEq, Repr

end Sys2Proof
end

