-- ==== Sys2Proof/Syntax.lean ====
section
/-! DEFINITION. The events (the rows of spec/opcode_table.json) and the lines of the trace syntax
(spec/30_encoding.md R51, R57 to R59). -/

namespace Sys2Proof

/-- The direction of an edge, in the block's logical sense (R52, R80): a falling edge ends a pulse, a rising edge ends a space. -/
inductive Dir where
  | rising
  | falling
deriving DecidableEq, Repr

/-- The events, one constructor per row of the opcode table (R51). -/
inductive Instr where
  /-- `NOP` (R115). -/
  | nop
  /-- `EDGE.RISE t`: the whole TS field; the block reads its low TS_WIDTH bits (R54, R94). -/
  | edgeRise (ts : Timestamp)
  /-- `EDGE.FALL t` (R95). -/
  | edgeFall (ts : Timestamp)
  /-- `TIMEOUT g` (R112). -/
  | timeout (g : Tag)
  /-- `ENABLE x`: x is the variant, false the 8-bit one, true the extended one (R116). -/
  | enable (x : Bool)
  /-- `SETERR e` (R117). -/
  | setErr (e : Bool)
  /-- `CLOSE` (R119). -/
  | close
  /-- `RSVD6`, reserved (R120). -/
  | rsvd6
  /-- `RSVD7`, reserved (R120). -/
  | rsvd7
deriving DecidableEq, Repr

/-- One line of an event trace before its operands are checked (R57): the events, the aliases of R58
and the pseudo-instructions of R59. -/
inductive TraceLine where
  | nop
  | edgeRise (t : Nat)
  | edgeFall (t : Nat)
  | timeout (g : Nat)
  | enable (x : Nat)
  | setErr (e : Nat)
  | close
  /-- `ENABLE.STD` (R58). -/
  | enableStd
  /-- `ENABLE.EXT` (R58). -/
  | enableExt
  /-- `SETERR.ON` (R58). -/
  | setErrOn
  /-- `SETERR.OFF` (R58). -/
  | setErrOff
  /-- `MARK t0, d` (R59). -/
  | mark (t0 d : Nat)
  /-- `NEC.FRAME t0, raw` (R59). -/
  | necFrame (t0 raw : Nat)
  /-- `NEC.FRAME8 t0, a, c` (R59). -/
  | necFrame8 (t0 a c : Nat)
  /-- `NEC.FRAME16 t0, a, c` (R59). -/
  | necFrame16 (t0 a c : Nat)
  /-- `NEC.REPEAT t0` (R59). -/
  | necRepeat (t0 : Nat)
  /-- `RSVD6`, which an assembler refuses (R57, R120). -/
  | rsvd6
  /-- `RSVD7`, which an assembler refuses (R57, R120). -/
  | rsvd7
deriving DecidableEq, Repr

end Sys2Proof
end

