-- ==== Sys2Proof/Machine/State.lean ====
section
/-! DEFINITION. The block's state (spec/10_state.md R20), its output record (spec/30_encoding.md R60), its inputs, and the state
after reset (spec/70_reset_and_hazards.md R150). -/

namespace Sys2Proof.Machine

/-- ST, the frame state machine's state (R21). `asStop` is AS, AWAITING_STOP. -/
inductive FrameState where
  | idle
  | als
  | rb
  | asStop
deriving DecidableEq, Repr

/-- The 2-bit code of ST (R21). All four codes are legal. -/
def FrameState.code : FrameState → BitVec 2
  | .idle => 0b00#2
  | .als => 0b01#2
  | .rb => 0b10#2
  | .asStop => 0b11#2

/-- The error names of R130. Codes 0 and 7 have no name: they are never reported (R62). -/
inductive ErrorCode where
  | badLeader
  | badLeaderSpace
  | badBitTiming
  | checksumMismatch
  | frameTimeout
  | overrun
deriving DecidableEq, Repr

/-- The code of R130. -/
def ErrorCode.code : ErrorCode → BitVec 3
  | .badLeader => 1#3
  | .badLeaderSpace => 2#3
  | .badBitTiming => 3#3
  | .checksumMismatch => 4#3
  | .frameTimeout => 5#3
  | .overrun => 6#3

/-- The commands on tmr_cmd (R60). -/
inductive TmrCmd where
  | none
  | restart
  | cancel
deriving DecidableEq, Repr

/-- The 2-bit code of tmr_cmd (R60). -/
def TmrCmd.code : TmrCmd → BitVec 2
  | .none => 0b00#2
  | .restart => 0b01#2
  | .cancel => 0b10#2

/-- The fourteen registers S0 to S13 (R20), one record. -/
structure Regs where
  /-- S0 EN: 1 bound (R22). -/
  en : Bool
  /-- S1 EXT: 1 the extended variant (R22). -/
  ext : Bool
  /-- S2 ERR_EN: 1 an error handler is registered (R22). -/
  errEn : Bool
  /-- S3 ST (R21). -/
  st : FrameState
  /-- S4 BITCNT: data bits stored, 0 to 32 (R23). -/
  bitcnt : BitVec 6
  /-- S5 RAW: bit i is the i-th data bit received (R24). -/
  raw : BitVec 32
  /-- S6 T_LAST: the time of the last edge, TS_WIDTH bits (R25). -/
  tLast : Timestamp
  /-- S7 HAVE_LAST: T_LAST holds an edge time (R26). -/
  haveLast : Bool
  /-- S8 LAST_DIR: the direction of the last edge (R27). -/
  lastDir : Dir
  /-- S9 TMO_TAG (R28). -/
  tmoTag : Tag
  /-- S10 HIST_VALID (R29). -/
  histValid : Bool
  /-- S11 LAST_CMD (R29). -/
  lastCmd : Byte
  /-- S12 LAST_ADDR (R29). -/
  lastAddr : BitVec 16
  /-- S13 LAST_XA (R29). -/
  lastXa : Bool
deriving DecidableEq, Repr

/-- The reset values of R20 and R150. -/
def Regs.reset : Regs where
  en := false
  ext := false
  errEn := false
  st := .idle
  bitcnt := 0#6
  raw := 0#32
  tLast := 0#32
  haveLast := false
  lastDir := .rising
  tmoTag := 0#4
  histValid := false
  lastCmd := 0#8
  lastAddr := 0#16
  lastXa := false

/-- The output record one step drives, field by field at its width (R60). -/
structure Output where
  decV : Bool
  decWord : BitVec 27
  errV : Bool
  errCode : BitVec 3
  tmrCmd : BitVec 2
  tmrTag : Tag
  bindFail : Bool
deriving DecidableEq, Repr

/-- Every output field at its idle value (R60). -/
def Output.idle : Output where
  decV := false
  decWord := 0#27
  errV := false
  errCode := 0#3
  tmrCmd := 0b00#2
  tmrTag := 0#4
  bindFail := false

/-- What one step consumes: an event word on the event port, or the hardware reset input (R3, R150, R160). -/
inductive Input where
  | event (w : EventWord)
  | rst
deriving DecidableEq, Repr

/-- The state of the model: the fourteen registers, and three fields that are no registers of the block: the build
parameters (log 1), the record the last step drove (log 3), and the inputs still to be presented, the next one first (log 2). -/
structure State where
  cfg : Params
  regs : Regs
  out : Output
  port : List Input
deriving DecidableEq, Repr

/-- A fault: there is none. No event faults, traps, hangs or stops the block (R132), so no constructor exists and nobody raises one. -/
inductive Fault where
deriving DecidableEq, Repr

/-- A refusal of the model. -/
inductive Refusal where
  /-- An instruction whose meaning is not modelled, by its mnemonic. Raised by nobody: every arm of exec has its
  meaning. Safe: a refused step proves nothing about the hardware. -/
  | notModelled (mnemonic : String)
deriving DecidableEq, Repr

/-- What a step or a meaning answers. -/
abbrev StepOutcome := Host.Outcome State Fault Refusal

/-- The block built with parameters p, right after RST: every register at its reset value, every output idle (R150), nothing
presented yet. -/
def State.resetWith (p : Params) : State where
  cfg := p
  regs := Regs.reset
  out := Output.idle
  port := []

/-- The block with the default parameters (R7) right after RST (R150, R152). -/
def State.reset : State := State.resetWith Params.default

end Sys2Proof.Machine
end

