-- ==== Sys2Proof/Machine/Operands.lean ====
section
/-! DEFINITION. The operand of an edge event and the interval it ends (spec/30_encoding.md R54, spec/40_classifier.md R70). -/

namespace Sys2Proof.Machine

/-- t = TS[W-1:0] (R54): the timestamp modulo 2^W. -/
def edgeTime (W : Nat) (ts : Timestamp) : Timestamp :=
  BitVec.ofNat 32 (ts.toNat % 2 ^ W)

/-- sdiff_W(t, u), the signed modular difference (R70). -/
def sdiffW (W : Nat) (t u : Timestamp) : Int :=
  let x : Int := ((t.toNat : Int) - (u.toNat : Int)) % (2 ^ W : Nat)
  if (2 ^ (W - 1) : Nat) ≤ x then x - (2 ^ W : Nat) else x

/-- The interval that an edge with timestamp ts ends (R81): from T_LAST to t. -/
def interval (ts : Timestamp) (s : State) : Int :=
  sdiffW s.cfg.tsWidth (edgeTime s.cfg.tsWidth ts) s.regs.tLast

end Sys2Proof.Machine
end

