-- ==== Sys2Proof/Machine/Flags.lean ====
section
/-! DEFINITION. The condition bits of a step. The block has no flags register (spec/10_state.md R30). What its transitions
test is the match vector of the timing classifier (spec/40_classifier.md R72), recomputed at every edge. -/

namespace Sys2Proof.Machine

/-- The match vector M, one bit per category (R72). -/
structure MatchVector where
  lp : Bool
  ls : Bool
  rs : Bool
  bp : Bool
  b0 : Bool
  b1 : Bool
deriving DecidableEq, Repr

/-- M.k of R72. -/
def MatchVector.get (m : MatchVector) : Category → Bool
  | .lp => m.lp
  | .ls => m.ls
  | .rs => m.rs
  | .bp => m.bp
  | .b0 => m.b0
  | .b1 => m.b1

/-- lo <= d and d <= hi (R72). -/
def inWindow (k : Window) (d : Int) : Bool :=
  decide ((k.lo : Int) ≤ d) && decide (d ≤ (k.hi : Int))

/-- Classify(d) (R72): a pure function of the interval and the windows. -/
def classify (w : Windows) (d : Int) : MatchVector where
  lp := inWindow w.lp d
  ls := inWindow w.ls d
  rs := inWindow w.rs d
  bp := inWindow w.bp d
  b0 := inWindow w.b0 d
  b1 := inWindow w.b1 d

end Sys2Proof.Machine
end

