-- ==== Sys2Proof/Machine/Ops.lean ====
section
/-! DEFINITION. The named operations every meaning is made of: output emission (spec/30_encoding.md R60 to R63), the timer
requests (spec/43_timeout.md R110, R111), the return to IDLE (spec/41_frame_fsm.md R96), the error exit
(spec/60_exceptions.md R133, R134), the edge prologue (R81), register writes, the gate of EN and the two resets. -/

namespace Sys2Proof.Machine

/-- A step begins with every output at its idle value: a field that no rule emits holds it (R60). -/
def State.quiet (s : State) : State := { s with out := Output.idle }

/-- ENs gate: while EN = 0 the event does nothing (R121). -/
def whenBound (f : State → State) (s : State) : State :=
  if s.regs.en then f s else s

/-! ## Register writes -/

/-- ST <- f (R9). -/
def State.setSt (f : FrameState) (s : State) : State :=
  { s with regs := { s.regs with st := f } }

/-- BITCNT <- 0 and RAW <- 0. -/
def State.clearBits (s : State) : State :=
  { s with regs := { s.regs with bitcnt := 0#6, raw := 0#32 } }

/-- TMO_TAG <- g. -/
def State.setTmoTag (g : Tag) (s : State) : State :=
  { s with regs := { s.regs with tmoTag := g } }

/-- ERR_EN <- e. -/
def State.setErrEn (e : Bool) (s : State) : State :=
  { s with regs := { s.regs with errEn := e } }

/-- The repeat history of R104. -/
def State.setHistory (cmd : Byte) (addr : BitVec 16) (xa : Bool) (s : State) : State :=
  { s with regs := { s.regs with histValid := true, lastCmd := cmd, lastAddr := addr, lastXa := xa } }

/-- All registers <- reset values (R116, R119, R150). The build parameters are no registers. -/
def State.resetRegs (s : State) : State := { s with regs := Regs.reset }

/-! ## Outputs -/

/-- One bit of a word. -/
def bit1 (b : Bool) : BitVec 1 := if b then 1#1 else 0#1

/-- dec_word[26:0] = {XADDR, DATA_VALID, REPEAT, ADDR, CMD} (R61). -/
def packDec (cmd : Byte) (addr : BitVec 16) (rep dv xa : Bool) : BitVec 27 :=
  bit1 xa ++ bit1 dv ++ bit1 rep ++ addr ++ cmd

/-- emit DEC(cmd, addr, flags) (R9, R60). -/
def emitDec (cmd : Byte) (addr : BitVec 16) (rep dv xa : Bool) (s : State) : State :=
  { s with out := { s.out with decV := true, decWord := packDec cmd addr rep dv xa } }

/-- emit ERR(code) (R9, R60). -/
def emitErr (e : ErrorCode) (s : State) : State :=
  { s with out := { s.out with errV := true, errCode := e.code } }

/-- emit TMR(cmd, tag) (R9, R60). -/
def emitTmr (c : TmrCmd) (g : Tag) (s : State) : State :=
  { s with out := { s.out with tmrCmd := c.code, tmrTag := g } }

/-- emit BIND_FAIL (R9, R60). -/
def emitBindFail (s : State) : State :=
  { s with out := { s.out with bindFail := true } }

/-! ## Timer requests -/

/-- TimerRestart() (R110): the tag advances modulo 16 and its new value goes out. -/
def timerRestart (s : State) : State :=
  let s' := s.setTmoTag (s.regs.tmoTag + 1#4)
  emitTmr .restart s'.regs.tmoTag s'

/-- TimerCancel() (R111). -/
def timerCancel (s : State) : State := emitTmr .cancel s.regs.tmoTag s

/-! ## Error entry and the return to IDLE -/

/-- The attempt is dropped: ST <- IDLE, BITCNT <- 0, RAW <- 0. -/
def clearAttempt (s : State) : State := (s.setSt .idle).clearBits

/-- ToIdle() (R96). -/
def toIdle (s : State) : State := timerCancel (clearAttempt s)

/-- ReportError(E) (R134): the code goes out only when a handler is registered. -/
def reportError (e : ErrorCode) (s : State) : State :=
  if s.regs.errEn then emitErr e s else s

/-- raise E() (R133), the block's error exit, entered and left within one step. -/
def raiseError (e : ErrorCode) (s : State) : State := toIdle (reportError e s)

/-! ## The edge prologue -/

/-- The values local to an edge step (R81). -/
structure EdgeLocals where
  /-- have: HAVE_LAST before the edge. -/
  haveLast : Bool
  /-- prev: LAST_DIR before the edge. -/
  prev : Dir
  /-- d: the interval the edge ends. -/
  d : Int
  /-- M = Classify(d). -/
  m : MatchVector
deriving DecidableEq, Repr

/-- The reads of EdgePrologue (R81), from the state before it. -/
def edgeLocals (ts : Timestamp) (s : State) : EdgeLocals where
  haveLast := s.regs.haveLast
  prev := s.regs.lastDir
  d := interval ts s
  m := classify s.cfg.windows (interval ts s)

/-- The writes of EdgePrologue (R81): the edge is the new reference. -/
def recordEdge (dir : Dir) (ts : Timestamp) (s : State) : State :=
  { s with regs := { s.regs with tLast := edgeTime s.cfg.tsWidth ts, haveLast := true, lastDir := dir } }

/-! ## The hardware reset -/

/-- Asserting RST (R150): every register at its reset value, every output idle, no TMR CANCEL. -/
def hardwareReset (s : State) : State := s.quiet.resetRegs

end Sys2Proof.Machine
end

