-- ==== Sys2Proof/Machine/Control.lean ====
section
/-! DEFINITION. The lifecycle and control events (spec/44_control.md R115 to R121). -/

namespace Sys2Proof.Machine

/-- `NOP` (R115). -/
def execNop (s : State) : StepOutcome := .next s.quiet

/-- R116 on an unbound block: every register at its reset value, then EN <- 1 and EXT <- x. -/
def bindDecoder (x : Bool) (s : State) : State :=
  { s.resetRegs with regs := { s.resetRegs.regs with en := true, ext := x } }

/-- `ENABLE x` (R116). -/
def execEnable (x : Bool) (s : State) : StepOutcome :=
  .next (if s.regs.en then emitBindFail s.quiet else bindDecoder x s.quiet)

/-- `SETERR e` (R117). -/
def execSetErr (e : Bool) (s : State) : StepOutcome :=
  .next (whenBound (State.setErrEn e) s.quiet)

/-- The body of R119, while bound: the tag is read before the registers are reset. -/
def closeBound (s : State) : State :=
  if s.regs.st ≠ .idle then emitTmr .cancel s.regs.tmoTag s.resetRegs else s.resetRegs

/-- `CLOSE` (R119). -/
def execClose (s : State) : StepOutcome :=
  .next (whenBound closeBound s.quiet)

/-- `RSVD6` (R120): no state change, every output idle. -/
def execRsvd6 (s : State) : StepOutcome := .next s.quiet

/-- `RSVD7` (R120): no state change, every output idle. -/
def execRsvd7 (s : State) : StepOutcome := .next s.quiet

end Sys2Proof.Machine
end

