-- ==== Sys2Proof/Machine/Fields.lean ====
section
/-! DEFINITION. The bit accumulator and the field extractor (spec/42_fields.md R100 to R106). -/

namespace Sys2Proof.Machine

/-- v[n] <- b. A position outside the word writes nothing (reached in no run, log 11). -/
def setBit (v : BitVec 32) (n : Nat) (b : Bool) : BitVec 32 :=
  if b then v ||| (1#32 <<< n) else v &&& ~~~(1#32 <<< n)

/-- StoreBit(b) (R100). -/
def storeBit (b : Bool) (s : State) : State :=
  { s with regs := { s.regs with raw := setBit s.regs.raw s.regs.bitcnt.toNat b, bitcnt := s.regs.bitcnt + 1#6 } }

/-- A0, the address byte (R101). -/
def byteA0 (raw : BitVec 32) : Byte := raw.extractLsb' 0 8

/-- A1, the inverted or the high address byte (R101). -/
def byteA1 (raw : BitVec 32) : Byte := raw.extractLsb' 8 8

/-- C0, the command byte (R101). -/
def byteC0 (raw : BitVec 32) : Byte := raw.extractLsb' 16 8

/-- C1, the inverted command byte (R101). -/
def byteC1 (raw : BitVec 32) : Byte := raw.extractLsb' 24 8

/-- Deliver(cmd, addr, xa) (R104). -/
def deliver (cmd : Byte) (addr : BitVec 16) (xa : Bool) (s : State) : State :=
  toIdle ((emitDec cmd addr false true xa s).setHistory cmd addr xa)

/-- Validate() (R102). -/
def validate (s : State) : State :=
  let a0 := byteA0 s.regs.raw
  let a1 := byteA1 s.regs.raw
  let c0 := byteC0 s.regs.raw
  let c1 := byteC1 s.regs.raw
  if c0 ≠ ~~~c1 then raiseError .checksumMismatch s
  else if a0 = ~~~a1 then deliver c0 (a0.setWidth 16) false s
  else if s.regs.ext then deliver c0 (a1 ++ a0) true s
  else raiseError .checksumMismatch s

/-- The result of the extractor as a function (R106). -/
inductive ExtractResult where
  | fail
  | ok (cmd : Byte) (addr : BitVec 16) (xa : Bool)
deriving DecidableEq, Repr

/-- Extract(raw, ext) (R106), written from R106 and apart from `validate`: that the two agree is a statement. -/
def extract (raw : BitVec 32) (ext : Bool) : ExtractResult :=
  if byteC0 raw ≠ 0xFF#8 - byteC1 raw then .fail
  else if byteA0 raw = 0xFF#8 - byteA1 raw then .ok (byteC0 raw) ((byteA0 raw).setWidth 16) false
  else if ext then .ok (byteC0 raw) (raw.extractLsb' 0 16) true
  else .fail

end Sys2Proof.Machine
end

