-- ==== Sys2Proof/Machine/Edge.lean ====
section
/-! DEFINITION. The frame state machine: EDGE.RISE and EDGE.FALL (spec/41_frame_fsm.md R82 to R95). One definition per state and
direction; each reads the locals of the prologue and the state the prologue left. -/

namespace Sys2Proof.Machine

/-- IDLE, falling edge (R82). -/
def idleFall (l : EdgeLocals) (s : State) : State :=
  if l.haveLast && l.prev == .rising && l.m.lp then timerRestart (s.clearBits.setSt .als) else s

/-- IDLE, rising edge (R83): only the prologue runs. -/
def idleRise (_ : EdgeLocals) (s : State) : State := s

/-- R84: a leader space, a fresh frame begins. -/
def startFrame (s : State) : State := timerRestart ((s.setSt .rb).clearBits)

/-- R85: a repeat space, the repeat result is delivered. -/
def deliverRepeat (s : State) : State :=
  toIdle (emitDec s.regs.lastCmd s.regs.lastAddr true s.regs.histValid s.regs.lastXa s)

/-- ALS, rising edge (R84, R85, R86). -/
def alsRise (l : EdgeLocals) (s : State) : State :=
  if l.m.ls then startFrame s
  else if l.m.rs then deliverRepeat s
  else raiseError .badLeaderSpace s

/-- ALS, falling edge (R87). -/
def alsFall (_ : EdgeLocals) (s : State) : State := raiseError .badLeader s

/-- RB, falling edge (R88, R89). -/
def rbFall (l : EdgeLocals) (s : State) : State :=
  if l.prev = .falling then raiseError .badBitTiming s
  else if l.m.lp then raiseError .overrun s
  else if l.m.bp then timerRestart s
  else raiseError .badBitTiming s

/-- The end of R91, after the bit is stored. -/
def bitDone (s : State) : State :=
  timerRestart (if s.regs.bitcnt.toNat = frameBits then s.setSt .asStop else s)

/-- RB, rising edge (R90, R91). -/
def rbRise (l : EdgeLocals) (s : State) : State :=
  if l.prev = .rising then raiseError .badBitTiming s
  else if l.m.b1 then bitDone (storeBit true s)
  else if l.m.b0 then bitDone (storeBit false s)
  else raiseError .badBitTiming s

/-- AS, rising edge (R92). -/
def asRise (_ : EdgeLocals) (s : State) : State := raiseError .badBitTiming s

/-- AS, falling edge (R93). -/
def asFall (l : EdgeLocals) (s : State) : State :=
  if l.m.lp then raiseError .overrun s
  else if l.m.bp then validate s
  else raiseError .badBitTiming s

/-- The transition of a rising edge by ST (R94). -/
def riseByState (l : EdgeLocals) (s : State) : State :=
  match s.regs.st with
  | .idle => idleRise l s
  | .als => alsRise l s
  | .rb => rbRise l s
  | .asStop => asRise l s

/-- The transition of a falling edge by ST (R95). -/
def fallByState (l : EdgeLocals) (s : State) : State :=
  match s.regs.st with
  | .idle => idleFall l s
  | .als => alsFall l s
  | .rb => rbFall l s
  | .asStop => asFall l s

/-- `EDGE.RISE t` (R94). -/
def execEdgeRise (ts : Timestamp) (s : State) : StepOutcome :=
  .next (whenBound (fun b => riseByState (edgeLocals ts b) (recordEdge .rising ts b)) s.quiet)

/-- `EDGE.FALL t` (R95). -/
def execEdgeFall (ts : Timestamp) (s : State) : StepOutcome :=
  .next (whenBound (fun b => fallByState (edgeLocals ts b) (recordEdge .falling ts b)) s.quiet)

end Sys2Proof.Machine
end

