-- ==== Sys2Proof/Machine/Timeout.lean ====
section
/-! DEFINITION. The frame timeout event (spec/43_timeout.md R112, R113). -/

namespace Sys2Proof.Machine

/-- A TIMEOUT is stale if ST = IDLE or its tag is not the current one (R113). -/
def staleTimeout (g : Tag) (s : State) : Bool :=
  decide (s.regs.st = .idle) || decide (g ≠ s.regs.tmoTag)

/-- The body of R112, while bound. No TMR output: the timer has already fired. -/
def timeoutBound (g : Tag) (s : State) : State :=
  if staleTimeout g s then s else clearAttempt (reportError .frameTimeout s)

/-- `TIMEOUT g` (R112). -/
def execTimeout (g : Tag) (s : State) : StepOutcome :=
  .next (whenBound (timeoutBound g) s.quiet)

end Sys2Proof.Machine
end

