-- ==== Sys2Proof/Machine/Dispatch.lean ====
section
/-! DEFINITION. One arm per event of spec/30_encoding.md R51. -/

namespace Sys2Proof.Machine

def exec (i : Instr) (s : State) : Host.Outcome State Fault Refusal :=
  match i with
  | .nop => Sys2Proof.Machine.execNop s
  | .edgeRise ts => Sys2Proof.Machine.execEdgeRise ts s
  | .edgeFall ts => Sys2Proof.Machine.execEdgeFall ts s
  | .timeout g => Sys2Proof.Machine.execTimeout g s
  | .enable x => Sys2Proof.Machine.execEnable x s
  | .setErr e => Sys2Proof.Machine.execSetErr e s
  | .close => Sys2Proof.Machine.execClose s
  | .rsvd6 => Sys2Proof.Machine.execRsvd6 s
  | .rsvd7 => Sys2Proof.Machine.execRsvd7 s

end Sys2Proof.Machine
end

