-- ==== Sys2Proof/WellFormed.lean ====
section
/-! DEFINITION. What makes parameters legal (spec/00_scope.md R7, spec/40_classifier.md R73) and a trace line
acceptable to an assembler (spec/30_encoding.md R57). Every value of every field of an `Instr` is a legal operand, and the
block runs RSVD6 and RSVD7 (R120), so `Instr.Writable` only says which events an assembler may write. -/

namespace Sys2Proof

/-- One window is legal for a timestamp of w bits: 1 <= lo <= hi < 2^(w-1) (R7). -/
abbrev Window.Legal (w : Nat) (k : Window) : Prop :=
  1 ≤ k.lo ∧ k.lo ≤ k.hi ∧ k.hi < 2 ^ (w - 1)

/-- Two windows share no interval. -/
abbrev Window.Disjoint (a b : Window) : Prop :=
  a.hi < b.lo ∨ b.hi < a.lo

/-- Every window is legal on its own (R7). -/
abbrev Params.WindowsInRange (p : Params) : Prop :=
  p.windows.lp.Legal p.tsWidth ∧ p.windows.ls.Legal p.tsWidth ∧ p.windows.rs.Legal p.tsWidth ∧
  p.windows.bp.Legal p.tsWidth ∧ p.windows.b0.Legal p.tsWidth ∧ p.windows.b1.Legal p.tsWidth

/-- The pairs the state machine reads together are disjoint (R73). -/
abbrev Params.PairsDisjoint (p : Params) : Prop :=
  p.windows.lp.Disjoint p.windows.bp ∧ p.windows.ls.Disjoint p.windows.rs ∧ p.windows.b0.Disjoint p.windows.b1

/-- TIMEOUT_MS is at least 1 and longer than every window (R7, R73). -/
abbrev Params.TimeoutLongest (p : Params) : Prop :=
  1 ≤ p.timeoutMs ∧
  p.windows.lp.hi < p.timeoutMs * 1000 ∧ p.windows.ls.hi < p.timeoutMs * 1000 ∧
  p.windows.rs.hi < p.timeoutMs * 1000 ∧ p.windows.bp.hi < p.timeoutMs * 1000 ∧
  p.windows.b0.hi < p.timeoutMs * 1000 ∧ p.windows.b1.hi < p.timeoutMs * 1000

/-- The legal parameter values (R7, R73). -/
abbrev Params.Legal (p : Params) : Prop :=
  (15 ≤ p.tsWidth ∧ p.tsWidth ≤ 32) ∧ p.WindowsInRange ∧ p.PairsDisjoint ∧ p.TimeoutLongest

/-- The events an assembler may write: all but the two reserved ones (R57, R120). -/
def Instr.Writable : Instr → Bool
  | .nop => true
  | .edgeRise _ => true
  | .edgeFall _ => true
  | .timeout _ => true
  | .enable _ => true
  | .setErr _ => true
  | .close => true
  | .rsvd6 => false
  | .rsvd7 => false

/-- The operand ranges of R57. A pseudo-instruction's t0 and raw have the ranges of EDGE's operand and of RAW;
its other operands are sliced or added modulo 2^32 and have no range (DEDUCED, log 12). -/
def TraceLine.wellFormed : TraceLine → Bool
  | .nop => true
  | .edgeRise t => decide (t < 2 ^ 32)
  | .edgeFall t => decide (t < 2 ^ 32)
  | .timeout g => decide (g ≤ 15)
  | .enable x => decide (x ≤ 1)
  | .setErr e => decide (e ≤ 1)
  | .close => true
  | .enableStd => true
  | .enableExt => true
  | .setErrOn => true
  | .setErrOff => true
  | .mark t0 _ => decide (t0 < 2 ^ 32)
  | .necFrame t0 raw => decide (t0 < 2 ^ 32) && decide (raw < 2 ^ 32)
  | .necFrame8 t0 _ _ => decide (t0 < 2 ^ 32)
  | .necFrame16 t0 _ _ => decide (t0 < 2 ^ 32)
  | .necRepeat t0 => decide (t0 < 2 ^ 32)
  | .rsvd6 => false
  | .rsvd7 => false

end Sys2Proof
end

