-- ==== Sys2Proof/Decode.lean ====
section
/-! DEFINITION. Decoding an event word and encoding an event (spec/30_encoding.md R50 to R56 and R65). Decoding is
total: every 40-bit word is an event (R56). -/

namespace Sys2Proof

/-- OP, EV[2:0] (R50). -/
def evOp (w : EventWord) : BitVec 3 := w.extractLsb' 0 3

/-- DIR, EV[3] (R50). -/
def evDir (w : EventWord) : BitVec 1 := w.extractLsb' 3 1

/-- ARG, EV[7:4] (R50). -/
def evArg (w : EventWord) : BitVec 4 := w.extractLsb' 4 4

/-- TS, EV[39:8] (R50). -/
def evTs (w : EventWord) : Timestamp := w.extractLsb' 8 32

/-- ARG[0], which ENABLE and SETERR read (R53). -/
def evArg0 (w : EventWord) : Bool := (evArg w).getLsbD 0

/-- The decoding procedure of R65. An EDGE keeps its whole TS field: the prologue takes its low TS_WIDTH bits (R81, log 6). -/
def decode (w : EventWord) : Instr :=
  match (evOp w).toFin with
  | 0 => .nop
  | 1 => if evDir w = 0#1 then .edgeRise (evTs w) else .edgeFall (evTs w)
  | 2 => .timeout (evArg w)
  | 3 => .enable (evArg0 w)
  | 4 => .setErr (evArg0 w)
  | 5 => .close
  | 6 => .rsvd6
  | 7 => .rsvd7

/-- The event of a row of the opcode table whose bits are w (bit 0 the least significant bit of EV). Every row is one 40-bit
word, and the bits above nbits are 0. A longer word is no event word (R50: one event word length). -/
def decodeTableWord (nbits w : Nat) : Option Instr :=
  if nbits ≤ 40 then some (decode (BitVec.ofNat 40 (w % 2 ^ nbits))) else none

/-- The event word {TS, ARG, DIR, OP} (R50). -/
def packEvent (ts : Timestamp) (arg : BitVec 4) (dir : BitVec 1) (op : BitVec 3) : EventWord :=
  ts ++ arg ++ dir ++ op

/-- A one-bit argument in ARG[0], ARG[3:1] = 0 (R53, R57). -/
def arg1 (b : Bool) : BitVec 4 := if b then 1#4 else 0#4

/-- The word the trace syntax writes for an event: every bit that R51 to R53 do not read is 0 (R55, R57). TS is the whole t of R57,
for every TS_WIDTH: R57 writes TS = t for every t < 2^32 and reads no width, where R55 has TS[31:W] written as 0 (DESIGN CHOICE,
log 13). An assembler refuses the reserved opcodes (R57); their words here are the rows of R51. -/
def encode : Instr → EventWord
  | .nop => packEvent 0#32 0#4 0#1 0b000#3
  | .edgeRise ts => packEvent ts 0#4 0#1 0b001#3
  | .edgeFall ts => packEvent ts 0#4 1#1 0b001#3
  | .timeout g => packEvent 0#32 g 0#1 0b010#3
  | .enable x => packEvent 0#32 (arg1 x) 0#1 0b011#3
  | .setErr e => packEvent 0#32 (arg1 e) 0#1 0b100#3
  | .close => packEvent 0#32 0#4 0#1 0b101#3
  | .rsvd6 => packEvent 0#32 0#4 0#1 0b110#3
  | .rsvd7 => packEvent 0#32 0#4 0#1 0b111#3

end Sys2Proof
end

