-- ==== Sys2Proof/Machine/Port.lean ====
section
/-! DEFINITION. What a step consumes (spec/00_scope.md R3, spec/70_reset_and_hazards.md R160): the next input of the event port. -/

namespace Sys2Proof.Machine

/-- An input as the step sees it: an event, or the hardware reset. -/
inductive Action where
  | run (i : Instr)
  | reset
deriving DecidableEq, Repr

/-- The next input, and the inputs after it. An empty port is an idle bus, whose event is NOP (R51; DEDUCED, log 2). -/
def takeInput : List Input → Action × List Input
  | [] => (.run .nop, [])
  | .rst :: rest => (.reset, rest)
  | .event w :: rest => (.run (decode w), rest)

/-- The state with the inputs after the next one. -/
def State.setPort (p : List Input) (s : State) : State := { s with port := p }

/-- Input x is presented next. -/
def State.present (x : Input) (s : State) : State := { s with port := x :: s.port }

end Sys2Proof.Machine
end

