-- ==== Sys2Proof/Machine/Step.lean ====
section
/-! DEFINITION. One step (spec/00_scope.md R3, spec/20_memory.md R45): the next input is consumed, the registers move and the
output record is driven, all at once. -/

namespace Sys2Proof.Machine

/-- One step. -/
def step (s : State) : Host.Outcome State Fault Refusal :=
  match takeInput s.port with
  | (.run i, rest) => exec i (s.setPort rest)
  | (.reset, rest) => .next (hardwareReset (s.setPort rest))

/-- The event word whose table bits are w is presented next. Nothing else changes. -/
def State.withFetchWord (s : State) (nbits w : Nat) : State :=
  s.present (.event (BitVec.ofNat 40 (w % 2 ^ nbits)))

end Sys2Proof.Machine
end

