-- ==== Sys2Proof/Machine/EdgeTimer.lean ====
section
/-! DEFINITION. The environment's side of the contract (spec/60_exceptions.md R136 to R140, spec/70_reset_and_hazards.md R153,
R154, R157 and R161): the block together with its Edge Timer, as a closed system. An action that breaks a duty has no result.
No rule of the block reads anything defined here. What the spec leaves open of an environment is chosen in log 10. -/

namespace Sys2Proof.Machine

/-- The Edge Timer as the block sees it. -/
structure EdgeTimer where
  /-- The true time in µs. -/
  now : Nat
  /-- The direction of the last transition of the IR input; none before the first. Transitions alternate, since the input has two
  levels and every one of them is presented (R136, R161; DEDUCED, log 10). -/
  line : Option Dir
  /-- The transitions that happened and are not yet presented, with their times, oldest first (R136). -/
  edges : List (Dir × Nat)
  /-- The scheduled timeout: its tag and the time of the RESTART that asked for it (R137). -/
  pending : Option (Tag × Nat)
  /-- Superseded and cancelled timeouts, each with the time of its RESTART. A late timer may still deliver one, not before it
  is due (R137) and while it is ignored, until its tag is in use again (R138, R157, R161). -/
  dead : List (Tag × Nat)
deriving DecidableEq, Repr

/-- The block and its Edge Timer. -/
structure System where
  block : State
  timer : EdgeTimer
deriving DecidableEq, Repr

/-- What the environment can do (R161). -/
inductive EnvAction where
  /-- Time passes. -/
  | wait (us : Nat)
  /-- The IR input makes a transition now. -/
  | transition (dir : Dir)
  /-- The oldest transition is presented as an EDGE. -/
  | presentEdge
  /-- The scheduled timeout is delivered. -/
  | presentTimeout
  /-- A dead timeout is delivered late. -/
  | presentLate (g : Tag) (armedAt : Nat)
  /-- The host presents a control event (R135). -/
  | control (i : Instr)
  /-- RST is asserted (R150). -/
  | reset
deriving DecidableEq, Repr

/-- The control events: what the host may present (R135, R161). The Edge Timer presents edges and timeouts, and nobody presents
the reserved opcodes, which no row of R161 names. -/
def isControl : Instr → Bool
  | .nop => true
  | .edgeRise _ => false
  | .edgeFall _ => false
  | .timeout _ => false
  | .enable _ => true
  | .setErr _ => true
  | .close => true
  | .rsvd6 => false
  | .rsvd7 => false

/-- The pending timeout, if any, becomes dead. -/
def EdgeTimer.drop (t : EdgeTimer) : EdgeTimer :=
  match t.pending with
  | some p => { t with pending := none, dead := p :: t.dead }
  | none => t

/-- What the Edge Timer does on the block's request (R63, R137, R138). A RESTART with tag g makes TMO_TAG equal g outside IDLE, so
after it no dead timeout with that tag may come any more (R157). -/
def EdgeTimer.hear (o : Output) (t : EdgeTimer) : EdgeTimer :=
  if o.tmrCmd = TmrCmd.restart.code then
    { t.drop with pending := some (o.tmrTag, t.now), dead := t.drop.dead.filter (fun d => d.1 ≠ o.tmrTag) }
  else if o.tmrCmd = TmrCmd.cancel.code then
    (if t.pending.map Prod.fst = some o.tmrTag then t.drop else t)
  else t

/-- The time from which the scheduled timeout may come (R137). -/
def dueAt (p : Params) (armedAt : Nat) : Nat := armedAt + p.timeoutMs * 1000

/-- A timeout is scheduled and due. -/
def System.timeoutDue (y : System) : Bool :=
  match y.timer.pending with
  | some (_, armedAt) => decide (dueAt y.block.cfg armedAt ≤ y.timer.now)
  | none => false

/-- Time may pass up to t without leaving a timeout undelivered beyond TIMER_LATENCY (R137). -/
def System.mayWaitUntil (env : EnvParams) (y : System) (t : Nat) : Bool :=
  match env.latencyUs, y.timer.pending with
  | some latency, some (_, armedAt) => decide (t ≤ dueAt y.block.cfg armedAt + latency)
  | some _, none => true
  | none, _ => true

/-- The event of a transition at a true time: TS is the time modulo 2^TS_WIDTH (R136). -/
def edgeEvent (W : Nat) (dir : Dir) (time : Nat) : Instr :=
  match dir with
  | .rising => .edgeRise (BitVec.ofNat 32 (time % 2 ^ W))
  | .falling => .edgeFall (BitVec.ofNat 32 (time % 2 ^ W))

/-- A TIMEOUT g would change nothing now (R113, R121). -/
def ignoresTimeout (g : Tag) (s : State) : Bool := !s.regs.en || staleTimeout g s

/-- The block takes one input, and the Edge Timer hears the record the step drove. -/
def System.feed (x : Input) (y : System) : Option System :=
  match step (y.block.present x) with
  | .next t => some { block := t, timer := y.timer.hear t.out }
  | .fault _ => none
  | .refused _ => none

/-- One action of an environment that keeps its duties; none where the action would break one (R161). An edge may wait unpresented
without limit (R161 lets edges be presented at any delay), so an edge that happened before a timeout fell due may be pending
with it and lie in a window: R140's account of such an edge is not made a duty here (DESIGN CHOICE, log 14). -/
def System.act (env : EnvParams) (a : EnvAction) (y : System) : Option System :=
  match a with
  | .wait us =>
    if y.mayWaitUntil env (y.timer.now + us) then some { y with timer := { y.timer with now := y.timer.now + us } } else none
  | .transition dir =>
    if y.timer.line = some dir then none
    else some { y with timer := { y.timer with line := some dir, edges := y.timer.edges ++ [(dir, y.timer.now)] } }
  | .presentEdge =>
    match y.timer.edges with
    | [] => none
    | (dir, time) :: rest =>
      if env.arbitration = .timeoutFirst ∧ y.timeoutDue = true then none
      else System.feed (.event (encode (edgeEvent y.block.cfg.tsWidth dir time))) { y with timer := { y.timer with edges := rest } }
  | .presentTimeout =>
    match y.timer.pending with
    | none => none
    | some (g, _) =>
      if y.timeoutDue = true ∧ ¬ (env.arbitration = .edgeFirst ∧ y.timer.edges ≠ []) then
        System.feed (.event (encode (.timeout g))) { y with timer := { y.timer with pending := none } }
      else none
  | .presentLate g armedAt =>
    if (g, armedAt) ∈ y.timer.dead ∧ dueAt y.block.cfg armedAt ≤ y.timer.now ∧ ignoresTimeout g y.block = true then
      System.feed (.event (encode (.timeout g))) { y with timer := { y.timer with dead := y.timer.dead.erase (g, armedAt) } }
    else none
  | .control i => if isControl i then System.feed (.event (encode i)) y else none
  | .reset => System.feed .rst { y with timer := { y.timer with pending := none, dead := [] } }

/-- The system after RST, with the Edge Timer set up and no timeout pending (R153 steps 1 and 2). R153 gives the counter's width
and modulus and no value to start from: true time, and so the counter, starts at 0 (DESIGN CHOICE, log 15), and a wait reaches
every other value. -/
def System.boot (p : Params) : System where
  block := State.resetWith p
  timer := { now := 0, line := none, edges := [], pending := none, dead := [] }

end Sys2Proof.Machine
end

