-- ==== Sys2Proof/Machine/Trace.lean ====
section
/-! DEFINITION. The trace syntax and its assembler (spec/30_encoding.md R57 to R59). It is no part of the hardware (D32): it writes
the words a run presents. -/

namespace Sys2Proof.Machine

/-- A timestamp of the trace syntax; sums are taken modulo 2^32 (R59). -/
def stamp (t : Nat) : Timestamp := BitVec.ofNat 32 t

/-! ## Pseudo-instructions -/

/-- The data bits of a frame in the order they are sent: raw[0] first (R43, R59). -/
def sentBits (raw : BitVec 32) : List Bool := (List.range 32).map raw.getLsbD

/-- The edges of NEC.FRAME after the leader space, which ended at time t: a pulse of 563 and a space of 1687 or 562 per bit,
then the stop pulse of 563 (R59). -/
def bitEdges (t : Nat) : List Bool → List Instr
  | [] => [.edgeFall (stamp (t + 563))]
  | b :: bs =>
    let t' := t + 563 + (if b then 1687 else 562)
    .edgeFall (stamp (t + 563)) :: .edgeRise (stamp t') :: bitEdges t' bs

/-- NEC.FRAME t0, raw (R59). -/
def frameEvents (t0 : Nat) (raw : BitVec 32) : List Instr :=
  .edgeRise (stamp t0) :: .edgeFall (stamp (t0 + 9000)) :: .edgeRise (stamp (t0 + 9000 + 4500)) ::
    bitEdges (t0 + 9000 + 4500) (sentBits raw)

/-- The raw value of NEC.FRAME8 (R59): each byte followed by its complement. -/
def frame8Raw (a c : Byte) : BitVec 32 := ~~~c ++ c ++ ~~~a ++ a

/-- The raw value of NEC.FRAME16 (R59). -/
def frame16Raw (a : BitVec 16) (c : Byte) : BitVec 32 := ~~~c ++ c ++ a

/-- The events a line stands for (R57 to R59). -/
def lineEvents : TraceLine → List Instr
  | .nop => [.nop]
  | .edgeRise t => [.edgeRise (stamp t)]
  | .edgeFall t => [.edgeFall (stamp t)]
  | .timeout g => [.timeout (BitVec.ofNat 4 g)]
  | .enable x => [.enable (x == 1)]
  | .setErr e => [.setErr (e == 1)]
  | .close => [.close]
  | .enableStd => [.enable false]
  | .enableExt => [.enable true]
  | .setErrOn => [.setErr true]
  | .setErrOff => [.setErr false]
  | .mark t0 d => [.edgeRise (stamp t0), .edgeFall (stamp (t0 + d))]
  | .necFrame t0 raw => frameEvents t0 (BitVec.ofNat 32 raw)
  | .necFrame8 t0 a c => frameEvents t0 (frame8Raw (BitVec.ofNat 8 a) (BitVec.ofNat 8 c))
  | .necFrame16 t0 a c => frameEvents t0 (frame16Raw (BitVec.ofNat 16 a) (BitVec.ofNat 8 c))
  | .necRepeat t0 =>
    [.edgeRise (stamp t0), .edgeFall (stamp (t0 + 9000)), .edgeRise (stamp (t0 + 11250)), .edgeFall (stamp (t0 + 11813))]
  | .rsvd6 => [.rsvd6]
  | .rsvd7 => [.rsvd7]

/-- The words of a line, or a refusal: RSVD6, RSVD7 and operands out of range are refused (R57). -/
def assemble (l : TraceLine) : Option (List EventWord) :=
  if l.wellFormed then some ((lineEvents l).map encode) else none

/-- The words as inputs of the block. -/
def asInputs (ws : List EventWord) : List Input := ws.map Input.event

/-! ## The text of a line -/

/-- `;` starts a comment (R57). -/
def stripComment : List Char → List Char
  | [] => []
  | c :: cs => if c = ';' then [] else c :: stripComment cs

/-- Blanks and commas part the words of a line (DESIGN CHOICE, log 12). -/
def isSeparator (c : Char) : Bool := c == ' ' || c == '\t' || c == ','

/-- The words of a line; `cur` is the word being read. -/
def splitWords : List Char → List Char → List (List Char)
  | cur, [] => if cur = [] then [] else [cur]
  | cur, c :: cs =>
    if isSeparator c then (if cur = [] then splitWords [] cs else cur :: splitWords [] cs)
    else splitWords (cur ++ [c]) cs

/-- A digit's value, either case of a hexadecimal letter (DESIGN CHOICE, log 12). -/
def digitValue (c : Char) : Option Nat :=
  let n := c.toNat
  if 48 ≤ n ∧ n ≤ 57 then some (n - 48)
  else if 65 ≤ n ∧ n ≤ 70 then some (n - 55)
  else if 97 ≤ n ∧ n ≤ 102 then some (n - 87)
  else none

/-- A number in the given base, from its digits and the value read so far. -/
def readDigits (base : Nat) : Nat → List Char → Option Nat
  | acc, [] => some acc
  | acc, c :: cs =>
    match digitValue c with
    | some v => if v < base then readDigits base (acc * base + v) cs else none
    | none => none

/-- A number, decimal or 0x-hex. R57 says so in the row of EDGE.RISE alone; that the operands of every other line are read the same
way, that leading zeros are allowed and that the prefix is 0x and not 0X, is the model's choice (DESIGN CHOICE, log 12). -/
def readNumber : List Char → Option Nat
  | [] => none
  | '0' :: 'x' :: [] => none
  | '0' :: 'x' :: ds => readDigits 16 0 ds
  | ds => readDigits 10 0 ds

/-- The lines without operand, by mnemonic. RSVD6 and RSVD7 are read, and refused by `assemble`. -/
def plainLines : List (String × TraceLine) :=
  [("NOP", .nop), ("CLOSE", .close), ("ENABLE.STD", .enableStd), ("ENABLE.EXT", .enableExt),
   ("SETERR.ON", .setErrOn), ("SETERR.OFF", .setErrOff), ("RSVD6", .rsvd6), ("RSVD7", .rsvd7)]

/-- The line of a mnemonic and its operands. Any other mnemonic is refused (R57), and so
is a number of operands that the syntax of the line does not show (DEDUCED, log 12). -/
def readLine (m : List Char) (ns : List Nat) : Option TraceLine :=
  match ns with
  | [] => (plainLines.find? (fun p => p.1.toList == m)).map Prod.snd
  | [a] =>
    if m = "EDGE.RISE".toList then some (.edgeRise a)
    else if m = "EDGE.FALL".toList then some (.edgeFall a)
    else if m = "TIMEOUT".toList then some (.timeout a)
    else if m = "ENABLE".toList then some (.enable a)
    else if m = "SETERR".toList then some (.setErr a)
    else if m = "NEC.REPEAT".toList then some (.necRepeat a)
    else none
  | [a, b] =>
    if m = "MARK".toList then some (.mark a b)
    else if m = "NEC.FRAME".toList then some (.necFrame a b)
    else none
  | [a, b, c] =>
    if m = "NEC.FRAME8".toList then some (.necFrame8 a b c)
    else if m = "NEC.FRAME16".toList then some (.necFrame16 a b c)
    else none
  | _ => none

/-- The words of one line of text (R57). A line with nothing but blanks and a comment writes no word (DESIGN CHOICE,
log 12). -/
def assembleText (line : List Char) : Option (List EventWord) :=
  match splitWords [] (stripComment line) with
  | [] => some []
  | m :: ops =>
    match ops.mapM readNumber with
    | some ns => (readLine m ns).bind assemble
    | none => none

/-- One hexadecimal digit. -/
def hexDigit (n : Nat) : Char := Char.ofNat (if n < 10 then 48 + n else 55 + n)

/-- The encoded word as 10 hexadecimal digits after 0x (R57), its letters in capitals (DEDUCED, log 12). -/
def hexWord (w : EventWord) : List Char :=
  '0' :: 'x' :: [9, 8, 7, 6, 5, 4, 3, 2, 1, 0].map (fun i => hexDigit (w.toNat / 16 ^ i % 16))

end Sys2Proof.Machine
end

