-- ==== Sys2Proof/Safety.lean ====
section
/-! DEFINITION. What the statements are said in: the invariants of spec/10_state.md R33, the armed condition (R34), legal output
records (spec/30_encoding.md R60, R62, R64), runs and their observation (spec/70_reset_and_hazards.md R160), and the timing of a
frame as the rules of spec/41_frame_fsm.md measure it. A run is safe when its states keep `State.Inv` and its records are
`Output.Legal`. -/

namespace Sys2Proof.Machine

/-- The seven invariants of R33, in its order. -/
abbrev Regs.Inv (r : Regs) : Prop :=
  (r.en = false → r = Regs.reset) ∧
  (r.st = .idle → r.bitcnt = 0#6 ∧ r.raw = 0#32) ∧
  (r.st = .als → r.bitcnt = 0#6 ∧ r.raw = 0#32 ∧ r.haveLast = true ∧ r.lastDir = .falling) ∧
  (r.st = .rb → r.bitcnt.toNat ≤ 31 ∧ r.raw.toNat < 2 ^ r.bitcnt.toNat ∧ r.haveLast = true) ∧
  (r.st = .asStop → r.bitcnt.toNat = 32 ∧ r.haveLast = true ∧ r.lastDir = .rising) ∧
  (r.histValid = false → r.lastCmd = 0#8 ∧ r.lastAddr = 0#16 ∧ r.lastXa = false) ∧
  (r.lastXa = false → r.lastAddr.extractLsb' 8 8 = 0#8)

/-- A legal build whose registers meet R33 and whose T_LAST has TS_WIDTH bits (R7, R20). -/
abbrev State.Inv (s : State) : Prop :=
  s.cfg.Legal ∧ s.regs.Inv ∧ s.regs.tLast.toNat < 2 ^ s.cfg.tsWidth

/-- Armed: EN = 1 and ST != IDLE (R34). -/
abbrev State.Armed (s : State) : Prop := s.regs.en = true ∧ s.regs.st ≠ .idle

/-- What R60, R62 and R64 say of a record: unused fields at their idle value, tmr_cmd never 0b11, err_code 1 to 6 with
err_v, at most one of DEC and ERR, BIND_FAIL alone. -/
abbrev Output.Legal (o : Output) : Prop :=
  (o.decV = false → o.decWord = 0#27) ∧
  (o.errV = false → o.errCode = 0#3) ∧
  (o.errV = true → o.errCode ≠ 0#3 ∧ o.errCode ≠ 7#3) ∧
  o.tmrCmd ≠ 3#2 ∧
  (o.tmrCmd = TmrCmd.none.code → o.tmrTag = 0#4) ∧
  ¬ (o.decV = true ∧ o.errV = true) ∧
  (o.bindFail = true → o = { Output.idle with bindFail := true })

/-- A record without its error report. -/
def Output.withoutErr (o : Output) : Output := { o with errV := false, errCode := 0#3 }

/-- The states that differ from s at most in ERR_EN and in the error report of the last record (R134). -/
def State.withoutErr (s : State) : State :=
  { s with regs := { s.regs with errEn := false }, out := s.out.withoutErr }

/-- The records of the first k steps from s (R160). -/
def observe : Nat → State → List Output
  | 0, _ => []
  | k + 1, s =>
    match step s with
    | .next t => t.out :: observe k t
    | .fault _ => []
    | .refused _ => []

/-- An ENABLE event. -/
def Input.isEnable : Input → Bool
  | .event w => decide (evOp w = 3#3)
  | .rst => false

/-- A record with no DEC and no ERR. -/
abbrev Output.Silent (o : Output) : Prop := o.decV = false ∧ o.errV = false

/-- k steps. A step always answers a next state, so a run ends early never; the other outcomes are passed on. -/
def runSteps : Nat → State → StepOutcome
  | 0, s => .next s
  | k + 1, s =>
    match step s with
    | .next t => runSteps k t
    | .fault r => .fault r
    | .refused r => .refused r

/-- The block and its Edge Timer agree: exactly while the block is armed a timeout is scheduled, and it carries the current
tag (R34, R137, R138). -/
abbrev System.InStep (y : System) : Prop :=
  y.block.Inv ∧ y.block.port = [] ∧
  y.timer.pending.map Prod.fst = if y.block.Armed then some y.block.regs.tmoTag else none

/-- No dead timeout carries the tag of a live frame (R157). -/
abbrev System.DeadUnmatched (y : System) : Prop :=
  y.block.Armed → ∀ d ∈ y.timer.dead, d.1 ≠ y.block.regs.tmoTag

/-! ## The next states the statements name, written apart from the operations of the machine -/

/-- s with these registers and this record. -/
def State.answer (r : Regs) (o : Output) (s : State) : State := { s with regs := r, out := o }

/-- The registers with an edge recorded: the three writes of the prologue (R81). -/
def Regs.edged (dir : Dir) (t : Timestamp) (r : Regs) : Regs :=
  { r with tLast := t, haveLast := true, lastDir := dir }

/-- The registers with the attempt dropped (R96, R133). -/
def Regs.dropped (r : Regs) : Regs := { r with st := .idle, bitcnt := 0#6, raw := 0#32 }

/-- TMR RESTART with tag g, and nothing else (R60, R110). -/
def restartRecord (g : Tag) : Output := { Output.idle with tmrCmd := 0b01#2, tmrTag := g }

/-- TMR CANCEL with tag g, and nothing else (R60, R111). -/
def cancelRecord (g : Tag) : Output := { Output.idle with tmrCmd := 0b10#2, tmrTag := g }

/-- ERR with this code if a handler is registered, and TMR CANCEL with tag g (R97, R133, R134). -/
def errorRecord (errEn : Bool) (code : BitVec 3) (g : Tag) : Output :=
  if errEn then { cancelRecord g with errV := true, errCode := code } else cancelRecord g

/-- DEC with this word, and TMR CANCEL with tag g (R85, R97, R104). -/
def decRecord (word : BitVec 27) (g : Tag) : Output := { cancelRecord g with decV := true, decWord := word }

/-- M.k at an edge with timestamp ts (R72, R81). -/
def State.hits (k : Category) (ts : Timestamp) (s : State) : Bool := (classify s.cfg.windows (interval ts s)).get k

/-- The time an edge with timestamp ts records (R54, R81). -/
def State.timeOf (ts : Timestamp) (s : State) : Timestamp := edgeTime s.cfg.tsWidth ts

/-! ## The timing of a frame -/

/-- When the edges of one transmission come: a rising edge at `start`, then, each as the time since the edge before it, the
leader pulse, the leader space, pulse and space of every data bit, and the stop pulse (R80, R82 to R93). -/
structure FrameTiming where
  start : Nat
  leaderPulse : Nat
  leaderSpace : Nat
  bits : List (Nat × Nat)
  stopPulse : Nat
deriving DecidableEq, Repr

/-- The edges of the bits and the stop pulse, after an edge at time t. -/
def bitTimes (stopPulse : Nat) : Nat → List (Nat × Nat) → List (Dir × Nat)
  | t, [] => [(.falling, t + stopPulse)]
  | t, (p, q) :: bs => (.falling, t + p) :: (.rising, t + p + q) :: bitTimes stopPulse (t + p + q) bs

/-- The edges of the whole transmission with their true times. -/
def FrameTiming.edges (f : FrameTiming) : List (Dir × Nat) :=
  (.rising, f.start) :: (.falling, f.start + f.leaderPulse) :: (.rising, f.start + f.leaderPulse + f.leaderSpace) ::
    bitTimes f.stopPulse (f.start + f.leaderPulse + f.leaderSpace) f.bits

/-- The edges as inputs of a block whose timestamps have W bits (R136). -/
def edgeInputs (W : Nat) (es : List (Dir × Nat)) : List Input :=
  es.map (fun e => .event (encode (edgeEvent W e.1 e.2)))

/-- Every interval lies in its window: 32 bits, each a bit pulse and a long or short bit space (R71, R89, R91, R93). -/
def FrameTiming.wellTimed (w : Windows) (f : FrameTiming) : Bool :=
  inWindow w.lp f.leaderPulse && inWindow w.ls f.leaderSpace && inWindow w.bp f.stopPulse &&
  decide (f.bits.length = frameBits) &&
  f.bits.all (fun b => inWindow w.bp b.1 && (inWindow w.b1 b.2 || inWindow w.b0 b.2))

/-- The word of the bits received, the first one bit 0 (R24, R43): a long space is a 1. -/
def sentWord (w : Windows) : List (Nat × Nat) → Nat
  | [] => 0
  | b :: bs => (if inWindow w.b1 b.2 then 1 else 0) + 2 * sentWord w bs

/-- The 32-bit value a transmission carries. -/
def FrameTiming.raw (w : Windows) (f : FrameTiming) : BitVec 32 := BitVec.ofNat 32 (sentWord w f.bits)

end Sys2Proof.Machine
end

