-- ==== Sys2Proof/Certificates/Slice0/Obligations.lean ====
section
/-! DEFINITION. The statements for the provers. Each docstring names the rules of spec/ its Lean states. -/

open Sys2Proof Sys2Proof.Machine

/-! ## Encoding and the step -/

/-- Every event is read back from the word the encoder writes for it, with every operand, over the fields of R50 to R53. An edge's
timestamp comes back whole for every TS_WIDTH: R65 decodes only its low TS_WIDTH bits, and that the encoder writes the whole of
it (log 13) and the decoder keeps the whole of it (log 6) is the model's choice. -/
def Obligations.EveryEventDecodesFromItsEncoding : Prop :=
  ∀ i : Instr, decode (encode i) = i

/-- Re-encoding a decoded word keeps OP and the bits that R51 to R53 have its event read, and clears the others. An edge keeps all
of TS, TS[31:TS_WIDTH] as well: the decoder and the encoder read no width (log 6, log 13). -/
def Obligations.ReencodingClearsExactlyTheIgnoredBits : Prop :=
  ∀ w : EventWord, encode (decode w) = w &&&
    (if evOp w = 1#3 then 0xFFFFFFFF0F#40 else if evOp w = 2#3 then 0x00000000F7#40
     else if evOp w = 3#3 ∨ evOp w = 4#3 then 0x0000000017#40 else 0x0000000007#40)

/-- By the masks and matches of the opcode table, OP (and DIR for the edges) selects the event, whatever the other bits (from R51);
the operands are the bits EV[39:8], EV[7:4] and EV[4] (from R50 and R53), the edge's TS whole where R65 takes its low TS_WIDTH
bits (log 6). -/
def Obligations.OpcodeMapSelectsTheEvent : Prop :=
  ∀ w : EventWord,
    (w &&& 0x7#40 = 0x0#40 → decode w = .nop) ∧
    (w &&& 0xF#40 = 0x1#40 → decode w = .edgeRise (BitVec.ofNat 32 (w.toNat / 2 ^ 8))) ∧
    (w &&& 0xF#40 = 0x9#40 → decode w = .edgeFall (BitVec.ofNat 32 (w.toNat / 2 ^ 8))) ∧
    (w &&& 0x7#40 = 0x2#40 → decode w = .timeout (BitVec.ofNat 4 (w.toNat / 2 ^ 4))) ∧
    (w &&& 0x7#40 = 0x3#40 → decode w = .enable (w.toNat.testBit 4)) ∧
    (w &&& 0x7#40 = 0x4#40 → decode w = .setErr (w.toNat.testBit 4)) ∧
    (w &&& 0x7#40 = 0x5#40 → decode w = .close) ∧
    (w &&& 0x7#40 = 0x6#40 → decode w = .rsvd6) ∧
    (w &&& 0x7#40 = 0x7#40 → decode w = .rsvd7)

/-- Two words that agree on the bits R51 to R54 read give the same step from any state, and every word an assembler writes is its
own re-encoding: the bits R51 to R53 do not read are 0 (from R55; TS[31:TS_WIDTH] is written as given, log 13). -/
def Obligations.IgnoredBitsNeverMatter : Prop :=
  (∀ (s : State) (v w : EventWord), evOp v = evOp w →
    (evOp w = 1#3 → evDir v = evDir w ∧
      (evTs v).toNat % 2 ^ s.cfg.tsWidth = (evTs w).toNat % 2 ^ s.cfg.tsWidth) →
    (evOp w = 2#3 → evArg v = evArg w) →
    (evOp w = 3#3 ∨ evOp w = 4#3 → evArg0 v = evArg0 w) →
    step (s.present (.event v)) = step (s.present (.event w))) ∧
  (∀ (l : TraceLine) (ws : List EventWord) (w : EventWord), assemble l = some ws → w ∈ ws → encode (decode w) = w)

/-- Words written out from the spec (95_test_vectors.md 2.7) decode to the events they stand for; an edge keeps its whole TS, which
is what R65 reads at the default TS_WIDTH of 32 (log 6). -/
def Obligations.SampleWordsDecode : Prop :=
  decode 0x0000000000#40 = .nop ∧ decode 0xFFFFFFFF01#40 = .edgeRise 4294967295#32 ∧
  decode 0x0000232809#40 = .edgeFall 9000#32 ∧ decode 0x00000000F9#40 = .edgeFall 0#32 ∧
  decode 0x0000000052#40 = .timeout 5#4 ∧ decode 0xFFFFFFFFF3#40 = .enable true ∧ decode 0x0000000003#40 = .enable false ∧
  decode 0x0000000014#40 = .setErr true ∧ decode 0x0000000004#40 = .setErr false ∧ decode 0xFFFFFFFF0D#40 = .close ∧
  decode 0xFFFFFFFFFE#40 = .rsvd6 ∧ decode 0x0000000007#40 = .rsvd7

/-- A step runs the event the next word decodes to, at the state with that word consumed; RST resets (log 4); an empty port is
an idle bus and runs NOP (the model's choice, log 2). decode keeps the whole TS of an edge, and exec takes its low TS_WIDTH bits
where R65 does so in decoding (log 6). -/
def Obligations.StepRunsTheDecodedEvent : Prop :=
  ∀ (s : State) (w : EventWord) (rest : List Input),
    (s.port = .event w :: rest → step s = exec (decode w) { s with port := rest }) ∧
    (s.port = .rst :: rest → step s = .next { s with port := rest, regs := Regs.reset, out := Output.idle }) ∧
    (s.port = [] → step s = exec .nop s)

/-- The trace syntax encodes each event, refuses operands out of range and the reserved opcodes (from R57), and its aliases are the
lines they stand for (from R58). An edge line takes every t below 2^32 and writes the whole of it, whatever TS_WIDTH is: that is
the model's choice between R57 and R55 (log 13). -/
def Obligations.TraceSyntaxEncodesAndRefuses : Prop :=
  (∀ n : Nat,
    assemble (.edgeRise n) = (if n < 2 ^ 32 then some [encode (.edgeRise (BitVec.ofNat 32 n))] else none) ∧
    assemble (.edgeFall n) = (if n < 2 ^ 32 then some [encode (.edgeFall (BitVec.ofNat 32 n))] else none) ∧
    assemble (.timeout n) = (if n ≤ 15 then some [encode (.timeout (BitVec.ofNat 4 n))] else none) ∧
    assemble (.enable n) = (if n = 0 then some [encode (.enable false)] else if n = 1 then some [encode (.enable true)] else none) ∧
    assemble (.setErr n) = (if n = 0 then some [encode (.setErr false)] else if n = 1 then some [encode (.setErr true)] else none)) ∧
  assemble .nop = some [0x0000000000#40] ∧ assemble .close = some [0x0000000005#40] ∧
  assemble .rsvd6 = none ∧ assemble .rsvd7 = none ∧
  assemble .enableStd = assemble (.enable 0) ∧ assemble .enableExt = assemble (.enable 1) ∧
  assemble .setErrOn = assemble (.setErr 1) ∧ assemble .setErrOff = assemble (.setErr 0)

/-! ## Control events -/

/-- R115: NOP, whatever its other bits, changes no register and drives every output idle, bound or not. -/
def Obligations.NopLeavesEverythingAlone : Prop :=
  (∀ s : State, exec .nop s = .next (s.answer s.regs Output.idle)) ∧
  (∀ w : EventWord, evOp w = 0#3 → decode w = .nop)

/-- R120: the reserved opcodes, whatever their other bits, are no-ops in every state, and an assembler refuses them. -/
def Obligations.ReservedOpcodesDoNothing : Prop :=
  (∀ s : State, exec .rsvd6 s = .next (s.answer s.regs Output.idle) ∧ exec .rsvd7 s = .next (s.answer s.regs Output.idle)) ∧
  (∀ w : EventWord, (evOp w = 6#3 → decode w = .rsvd6) ∧ (evOp w = 7#3 → decode w = .rsvd7)) ∧
  assemble .rsvd6 = none ∧ assemble .rsvd7 = none

/-- R116: ENABLE binds an unbound block and is refused by a bound one; nothing but ENABLE sets EXT, EXT keeps its value while
bound, and the first edge after ENABLE only sets the reference. -/
def Obligations.EnableBindsOrIsRefused : Prop :=
  (∀ (s : State) (x : Bool), s.regs.en = false →
    exec (.enable x) s = .next (s.answer { Regs.reset with en := true, ext := x } Output.idle)) ∧
  (∀ (s : State) (x : Bool), s.regs.en = true →
    exec (.enable x) s = .next (s.answer s.regs { Output.idle with bindFail := true })) ∧
  (∀ w : EventWord, evOp w = 3#3 → decode w = .enable (w.getLsbD 4)) ∧
  (∀ (i : Instr) (s t : State), exec i s = .next t → s.regs.ext = false → t.regs.ext = true → ∃ x, i = .enable x) ∧
  (∀ (i : Instr) (s t : State), exec i s = .next t → s.regs.en = true → t.regs.en = true → t.regs.ext = s.regs.ext) ∧
  (∀ (s t : State) (x : Bool) (ts : Timestamp), s.regs.en = false → exec (.enable x) s = .next t →
    exec (.edgeRise ts) t = .next (t.answer (t.regs.edged .rising (t.timeOf ts)) Output.idle) ∧
    exec (.edgeFall ts) t = .next (t.answer (t.regs.edged .falling (t.timeOf ts)) Output.idle))

/-- R117: SETERR writes ERR_EN and nothing else, and only while bound; writing the value already held is a no-op. -/
def Obligations.SetErrWritesOnlyErrEn : Prop :=
  (∀ (s : State) (e : Bool), s.regs.en = true →
    exec (.setErr e) s = .next (s.answer { s.regs with errEn := e } Output.idle)) ∧
  (∀ (s : State) (e : Bool), s.regs.en = false → exec (.setErr e) s = .next (s.answer s.regs Output.idle)) ∧
  (∀ s : State, exec (.setErr s.regs.errEn) s = .next (s.answer s.regs Output.idle)) ∧
  (∀ w : EventWord, evOp w = 4#3 → decode w = .setErr (w.getLsbD 4))

/-- R119: CLOSE resets every register, cancels with the old tag exactly when armed and reports nothing; on an unbound block
it does nothing; and an unbound block stays as it is, with every output idle, on every event but ENABLE. -/
def Obligations.CloseResetsAndCancels : Prop :=
  (∀ s : State, s.regs.en = true → s.regs.st ≠ .idle →
    exec .close s = .next (s.answer Regs.reset (cancelRecord s.regs.tmoTag))) ∧
  (∀ s : State, s.regs.en = true → s.regs.st = .idle → exec .close s = .next (s.answer Regs.reset Output.idle)) ∧
  (∀ s : State, s.regs.en = false → exec .close s = .next (s.answer s.regs Output.idle)) ∧
  (∀ (s t : State), exec .close s = .next t → exec .close t = .next (t.answer t.regs Output.idle)) ∧
  (∀ (i : Instr) (s : State), s.regs.en = false → (∀ x, i ≠ .enable x) → exec i s = .next (s.answer s.regs Output.idle)) ∧
  (∀ w : EventWord, evOp w = 5#3 → decode w = .close)

/-- R121: an unbound block ignores edges, timeouts and SETERR. -/
def Obligations.UnboundBlockIgnoresEvents : Prop :=
  ∀ (s : State) (ts : Timestamp) (g : Tag) (e : Bool), s.regs.en = false →
    exec (.edgeRise ts) s = .next (s.answer s.regs Output.idle) ∧
    exec (.edgeFall ts) s = .next (s.answer s.regs Output.idle) ∧
    exec (.timeout g) s = .next (s.answer s.regs Output.idle) ∧
    exec (.setErr e) s = .next (s.answer s.regs Output.idle)

/-- R122: a second CLOSE changes no register and drives every output idle, and whatever inputs follow a CLOSE, no DEC and no
ERR comes before the next ENABLE: the first k records after it are silent if none of the first k inputs is an ENABLE, whatever
the inputs after those. -/
def Obligations.SilenceAfterCloseUntilEnable : Prop :=
  (∀ s t u : State, exec .close s = .next t → exec .close t = .next u → u.regs = t.regs ∧ u.out = Output.idle) ∧
  (∀ (s t : State) (k : Nat), exec .close s = .next t → (∀ x ∈ t.port.take k, x.isEnable = false) →
    ∀ o ∈ observe k t, o.Silent)

/-- R46: NOP, SETERR with the same argument, CLOSE and the reserved opcodes leave on their second run the registers they left
on the first; an edge presented twice to a bound block measures, the second time, the interval 0. -/
def Obligations.RepeatedEvents : Prop :=
  (∀ (i : Instr) (s t u : State), exec i s = .next t → exec i t = .next u →
    (i = .nop ∨ (∃ e, i = .setErr e) ∨ i = .close ∨ i = .rsvd6 ∨ i = .rsvd7) → u.regs = t.regs) ∧
  (∀ (s t : State) (ts : Timestamp), s.cfg.Legal → s.regs.en = true →
    (exec (.edgeRise ts) s = .next t ∨ exec (.edgeFall ts) s = .next t) → interval ts t = 0)

/-! ## Timeout -/

/-- R112: a current TIMEOUT ends the frame of an armed block, reported only to a handler and with no timer request; an unbound,
idle or otherwise tagged one does nothing; and an interval longer than TIMEOUT_MS never passes for a leader. -/
def Obligations.CurrentTimeoutEndsTheFrame : Prop :=
  (∀ s : State, s.Armed → exec (.timeout s.regs.tmoTag) s =
    .next (s.answer s.regs.dropped
      (if s.regs.errEn then { Output.idle with errV := true, errCode := 5#3 } else Output.idle))) ∧
  (∀ (s : State) (g : Tag), s.regs.en = false ∨ s.regs.st = .idle ∨ g ≠ s.regs.tmoTag →
    exec (.timeout g) s = .next (s.answer s.regs Output.idle)) ∧
  (∀ w : EventWord, evOp w = 2#3 → decode w = .timeout (evArg w)) ∧
  (∀ (s : State) (ts : Timestamp), s.cfg.Legal → s.regs.en = true → s.regs.st = .idle →
    (s.cfg.timeoutMs * 1000 : Nat) < interval ts s →
    exec (.edgeFall ts) s = .next (s.answer (s.regs.edged .falling (s.timeOf ts)) Output.idle))

/-- R113: a stale TIMEOUT changes nothing; the limit of the protection is that 16k RESTARTs bring the tag back, and that
after RST, or CLOSE and ENABLE, g RESTARTs reach tag g. -/
def Obligations.StaleTimeoutAndItsLimit : Prop :=
  (∀ (s : State) (g : Tag), s.regs.st = .idle ∨ g ≠ s.regs.tmoTag →
    exec (.timeout g) s = .next (s.answer s.regs Output.idle)) ∧
  (∀ (s : State) (k : Nat), (timerRestart^[16 * k] s).regs.tmoTag = s.regs.tmoTag) ∧
  (∀ (s : State) (g : Tag), (timerRestart^[g.toNat] (hardwareReset s)).regs.tmoTag = g) ∧
  (∀ (s t u : State) (x : Bool) (g : Tag), exec .close s = .next t → exec (.enable x) t = .next u →
    (timerRestart^[g.toNat] u).regs.tmoTag = g)

/-! ## Edges -/

/-- R83: in IDLE a rising edge only sets the reference. -/
def Obligations.IdleRisingEdgeSetsReference : Prop :=
  ∀ (s : State) (ts : Timestamp), s.regs.en = true → s.regs.st = .idle →
    exec (.edgeRise ts) s = .next (s.answer (s.regs.edged .rising (s.timeOf ts)) Output.idle)

/-- R82: in IDLE a falling edge that ends a measured pulse matching LP is a leader; any other is noise and only sets the
reference, with no error. -/
def Obligations.LeaderAcceptedOrNoiseIgnored : Prop :=
  (∀ (s : State) (ts : Timestamp), s.regs.en = true → s.regs.st = .idle → s.regs.haveLast = true →
    s.regs.lastDir = .rising → s.hits .lp ts = true →
    exec (.edgeFall ts) s = .next (s.answer
      { s.regs.edged .falling (s.timeOf ts) with
        st := .als, bitcnt := 0#6, raw := 0#32, tmoTag := s.regs.tmoTag + 1#4 }
      (restartRecord (s.regs.tmoTag + 1#4)))) ∧
  (∀ (s : State) (ts : Timestamp), s.regs.en = true → s.regs.st = .idle →
    (s.regs.haveLast = false ∨ s.regs.lastDir = .falling ∨ s.hits .lp ts = false) →
    exec (.edgeFall ts) s = .next (s.answer (s.regs.edged .falling (s.timeOf ts)) Output.idle))

/-- R84: in ALS a leader space begins a fresh frame. -/
def Obligations.LeaderSpaceStartsFrame : Prop :=
  ∀ (s : State) (ts : Timestamp), s.regs.en = true → s.regs.st = .als → s.hits .ls ts = true →
    exec (.edgeRise ts) s = .next (s.answer
      { s.regs.edged .rising (s.timeOf ts) with
        st := .rb, bitcnt := 0#6, raw := 0#32, tmoTag := s.regs.tmoTag + 1#4 }
      (restartRecord (s.regs.tmoTag + 1#4)))

/-- R85: in ALS a repeat space delivers the repeat result with the recorded payload, DATA_VALID = HIST_VALID, and returns to
IDLE; the stop pulse of 563 µs after it does not match LP and is ignored. -/
def Obligations.RepeatSpaceDeliversRepeat : Prop :=
  (∀ (s : State) (ts : Timestamp), s.regs.en = true → s.regs.st = .als →
    s.hits .ls ts = false → s.hits .rs ts = true →
    exec (.edgeRise ts) s = .next (s.answer (s.regs.edged .rising (s.timeOf ts)).dropped
      (decRecord (packDec s.regs.lastCmd s.regs.lastAddr true s.regs.histValid s.regs.lastXa) s.regs.tmoTag))) ∧
  (∀ (s : State) (ts : Timestamp), s.cfg.windows = Windows.default → s.regs.en = true → s.regs.st = .idle →
    interval ts s = 563 →
    exec (.edgeFall ts) s = .next (s.answer (s.regs.edged .falling (s.timeOf ts)) Output.idle))

/-- R86 and R87: in ALS a space that is neither LS nor RS is BAD_LEADER_SPACE, and a falling edge is BAD_LEADER whatever its
interval. -/
def Obligations.LeaderAnomaliesAreErrors : Prop :=
  (∀ (s : State) (ts : Timestamp), s.regs.en = true → s.regs.st = .als →
    s.hits .ls ts = false → s.hits .rs ts = false →
    exec (.edgeRise ts) s = .next (s.answer (s.regs.edged .rising (s.timeOf ts)).dropped
      (errorRecord s.regs.errEn 2#3 s.regs.tmoTag))) ∧
  (∀ (s : State) (ts : Timestamp), s.regs.en = true → s.regs.st = .als →
    exec (.edgeFall ts) s = .next (s.answer (s.regs.edged .falling (s.timeOf ts)).dropped
      (errorRecord s.regs.errEn 1#3 s.regs.tmoTag)))

/-- R88 and R89: in RB a falling edge after a falling edge is BAD_BIT_TIMING even if its interval matches LP; after a rising
edge, LP is OVERRUN, BP is a good bit pulse, and anything else is BAD_BIT_TIMING. -/
def Obligations.BitPulseOutcomes : Prop :=
  (∀ (s : State) (ts : Timestamp), s.regs.en = true → s.regs.st = .rb → s.regs.lastDir = .falling →
    exec (.edgeFall ts) s = .next (s.answer (s.regs.edged .falling (s.timeOf ts)).dropped
      (errorRecord s.regs.errEn 3#3 s.regs.tmoTag))) ∧
  (∀ (s : State) (ts : Timestamp), s.regs.en = true → s.regs.st = .rb → s.regs.lastDir = .rising →
    s.hits .lp ts = true →
    exec (.edgeFall ts) s = .next (s.answer (s.regs.edged .falling (s.timeOf ts)).dropped
      (errorRecord s.regs.errEn 6#3 s.regs.tmoTag))) ∧
  (∀ (s : State) (ts : Timestamp), s.regs.en = true → s.regs.st = .rb → s.regs.lastDir = .rising →
    s.hits .lp ts = false → s.hits .bp ts = true →
    exec (.edgeFall ts) s = .next (s.answer
      { s.regs.edged .falling (s.timeOf ts) with tmoTag := s.regs.tmoTag + 1#4 } (restartRecord (s.regs.tmoTag + 1#4)))) ∧
  (∀ (s : State) (ts : Timestamp), s.regs.en = true → s.regs.st = .rb → s.regs.lastDir = .rising →
    s.hits .lp ts = false → s.hits .bp ts = false →
    exec (.edgeFall ts) s = .next (s.answer (s.regs.edged .falling (s.timeOf ts)).dropped
      (errorRecord s.regs.errEn 3#3 s.regs.tmoTag)))

/-- R90 and R91: in RB a rising edge after a rising edge is BAD_BIT_TIMING; after a falling edge a long space stores a 1, a
short one a 0, the 32nd bit moves to AS, and any other space is BAD_BIT_TIMING. -/
def Obligations.BitSpaceOutcomes : Prop :=
  (∀ (s : State) (ts : Timestamp), s.regs.en = true → s.regs.st = .rb → s.regs.lastDir = .rising →
    exec (.edgeRise ts) s = .next (s.answer (s.regs.edged .rising (s.timeOf ts)).dropped
      (errorRecord s.regs.errEn 3#3 s.regs.tmoTag))) ∧
  (∀ (s : State) (ts : Timestamp) (b : Bool), s.Inv → s.regs.en = true → s.regs.st = .rb → s.regs.lastDir = .falling →
    (if b then s.hits .b1 ts = true else s.hits .b1 ts = false ∧ s.hits .b0 ts = true) →
    exec (.edgeRise ts) s = .next (s.answer
      { s.regs.edged .rising (s.timeOf ts) with
        st := if s.regs.bitcnt = 31#6 then .asStop else .rb
        bitcnt := s.regs.bitcnt + 1#6
        raw := if b then s.regs.raw ||| (1#32 <<< s.regs.bitcnt.toNat) else s.regs.raw
        tmoTag := s.regs.tmoTag + 1#4 }
      (restartRecord (s.regs.tmoTag + 1#4)))) ∧
  (∀ (s : State) (ts : Timestamp), s.regs.en = true → s.regs.st = .rb → s.regs.lastDir = .falling →
    s.hits .b1 ts = false → s.hits .b0 ts = false →
    exec (.edgeRise ts) s = .next (s.answer (s.regs.edged .rising (s.timeOf ts)).dropped
      (errorRecord s.regs.errEn 3#3 s.regs.tmoTag)))

/-- R92, R93 and R104: in AS a rising edge is BAD_BIT_TIMING; a falling edge whose pulse matches LP is OVERRUN, whatever the
checksum; one that matches neither LP nor BP is BAD_BIT_TIMING; one that matches BP validates the frame, and a frame the
extractor accepts is delivered and recorded for later repeats. -/
def Obligations.StopEdgeOutcomes : Prop :=
  (∀ (s : State) (ts : Timestamp), s.regs.en = true → s.regs.st = .asStop →
    exec (.edgeRise ts) s = .next (s.answer (s.regs.edged .rising (s.timeOf ts)).dropped
      (errorRecord s.regs.errEn 3#3 s.regs.tmoTag))) ∧
  (∀ (s : State) (ts : Timestamp), s.regs.en = true → s.regs.st = .asStop → s.hits .lp ts = true →
    exec (.edgeFall ts) s = .next (s.answer (s.regs.edged .falling (s.timeOf ts)).dropped
      (errorRecord s.regs.errEn 6#3 s.regs.tmoTag))) ∧
  (∀ (s : State) (ts : Timestamp), s.regs.en = true → s.regs.st = .asStop → s.hits .lp ts = false →
    s.hits .bp ts = false →
    exec (.edgeFall ts) s = .next (s.answer (s.regs.edged .falling (s.timeOf ts)).dropped
      (errorRecord s.regs.errEn 3#3 s.regs.tmoTag))) ∧
  (∀ (s : State) (ts : Timestamp) (cmd : Byte) (addr : BitVec 16) (xa : Bool),
    s.regs.en = true → s.regs.st = .asStop → s.hits .lp ts = false → s.hits .bp ts = true →
    extract s.regs.raw s.regs.ext = .ok cmd addr xa →
    exec (.edgeFall ts) s = .next (s.answer
      { (s.regs.edged .falling (s.timeOf ts)).dropped with histValid := true, lastCmd := cmd, lastAddr := addr, lastXa := xa }
      (decRecord (packDec cmd addr false true xa) s.regs.tmoTag))) ∧
  (∀ (s : State) (ts : Timestamp),
    s.regs.en = true → s.regs.st = .asStop → s.hits .lp ts = false → s.hits .bp ts = true →
    extract s.regs.raw s.regs.ext = .fail →
    exec (.edgeFall ts) s = .next (s.answer (s.regs.edged .falling (s.timeOf ts)).dropped
      (errorRecord s.regs.errEn 4#3 s.regs.tmoTag)))

/-! ## Classifier -/

/-- R70: the interval is sdiff_W of the edge's time and T_LAST; sdiff_W is the one integer in [-2^(W-1), 2^(W-1) - 1]
congruent to t - u modulo 2^W; a counter wrap is absorbed; and a t earlier than u gives a negative d, which matches no window. -/
def Obligations.SdiffIsTheSignedModularDifference : Prop :=
  (∀ (s : State) (ts : Timestamp), interval ts s = sdiffW s.cfg.tsWidth (s.timeOf ts) s.regs.tLast) ∧
  (∀ (W : Nat) (t u : Timestamp), 1 ≤ W →
    -(2 ^ (W - 1) : Int) ≤ sdiffW W t u ∧ sdiffW W t u ≤ 2 ^ (W - 1) - 1 ∧
    ((2 : Int) ^ W) ∣ ((t.toNat : Int) - (u.toNat : Int) - sdiffW W t u)) ∧
  sdiffW 32 0x00000100#32 0xFFFFFF00#32 = 512 ∧
  (∀ (W : Nat) (t u : Timestamp) (k : Nat), 1 ≤ W → k ≤ 2 ^ (W - 1) → (t.toNat + k) % 2 ^ W = u.toNat % 2 ^ W → 1 ≤ k →
    sdiffW W t u = -(k : Int)) ∧
  (∀ (p : Params) (k : Category) (d : Int), p.Legal → d < 0 → (classify p.windows d).get k = false)

/-- R71: the default windows are ±25% of the nominal values, rounded inward: an integer d matches category k exactly when
3 N2 <= 8 d <= 5 N2; the table is the one of the rule. -/
def Obligations.DefaultWindowsAreQuarterTolerance : Prop :=
  (∀ (k : Category) (d : Int), (classify Windows.default d).get k = true ↔
    3 * (k.nominalHalfUs : Int) ≤ 8 * d ∧ 8 * d ≤ 5 * (k.nominalHalfUs : Int)) ∧
  Windows.default = ⟨⟨6750, 11250⟩, ⟨3375, 5625⟩, ⟨1688, 2812⟩, ⟨422, 703⟩, ⟨422, 703⟩, ⟨1266, 2109⟩⟩

/-- R72: bit k of the match vector says that d lies in window k, bounds included; under legal windows nothing matches d <= 0. -/
def Obligations.ClassifyTestsEachWindow : Prop :=
  (∀ (w : Windows) (k : Category) (d : Int), (classify w d).get k = true ↔ ((w.get k).lo : Int) ≤ d ∧ d ≤ ((w.get k).hi : Int)) ∧
  (∀ (p : Params) (k : Category) (d : Int), p.Legal → d ≤ 0 → (classify p.windows d).get k = false)

/-- R73 and R74: under legal windows the two bits of a pair the state machine reads are never both 1; the default parameters
are legal; and under the default table RS and B1 share exactly 1688 to 2109 and BP and B0 are one window. -/
def Obligations.PairsReadTogetherAreDisjoint : Prop :=
  (∀ (p : Params) (d : Int), p.Legal →
    ¬ ((classify p.windows d).lp = true ∧ (classify p.windows d).bp = true) ∧
    ¬ ((classify p.windows d).ls = true ∧ (classify p.windows d).rs = true) ∧
    ¬ ((classify p.windows d).b1 = true ∧ (classify p.windows d).b0 = true)) ∧
  Params.default.Legal ∧
  (∀ d : Int, ((classify Windows.default d).rs = true ∧ (classify Windows.default d).b1 = true ↔ 1688 ≤ d ∧ d ≤ 2109) ∧
    (classify Windows.default d).bp = (classify Windows.default d).b0)

/-! ## Fields -/

/-- With BITCNT at most 31, StoreBit writes b to bit BITCNT and leaves the other bits, counts one bit more without overflow and
changes nothing else (from R100); and it keeps RAW below 2^BITCNT, if RAW was below it (its part of R33, whose ST = RB clause is
StepKeepsTheInvariant's). -/
def Obligations.StoreBitAppendsOneBit : Prop :=
  ∀ (s : State) (b : Bool), s.regs.bitcnt.toNat ≤ 31 →
    (∀ j < 32, (storeBit b s).regs.raw.getLsbD j = if j = s.regs.bitcnt.toNat then b else s.regs.raw.getLsbD j) ∧
    (storeBit b s).regs.bitcnt.toNat = s.regs.bitcnt.toNat + 1 ∧
    (s.regs.raw.toNat < 2 ^ s.regs.bitcnt.toNat →
      (storeBit b s).regs.raw.toNat < 2 ^ (storeBit b s).regs.bitcnt.toNat) ∧
    storeBit b s = s.answer { s.regs with raw := (storeBit b s).regs.raw, bitcnt := (storeBit b s).regs.bitcnt } s.out

/-- R106: Validate delivers exactly what Extract accepts and raises CHECKSUM_MISMATCH exactly when Extract fails; the rule's
example. -/
def Obligations.ValidateAgreesWithExtract : Prop :=
  (∀ s : State, validate s =
    match extract s.regs.raw s.regs.ext with
    | .ok cmd addr xa => deliver cmd addr xa s
    | .fail => raiseError .checksumMismatch s) ∧
  extract 0xE916FF00#32 false = .ok 0x16#8 0x0000#16 false

/-- The word of address byte a and command byte c with their complements is accepted in both variants and gives back c and a
in the 8-bit form (95_test_vectors.md W1 and W2, from R106). -/
def Obligations.ComplementedFrameExtracts : Prop :=
  ∀ (a c : Byte) (ext : Bool), extract (~~~c ++ c ++ ~~~a ++ a) ext = .ok c (a.setWidth 16) false

/-- R105, with the property it quotes: flipping one bit of an inverted byte makes a good frame fail in the 8-bit variant, and a
flip in the inverted command byte in both; a frame that fails is discarded with CHECKSUM_MISMATCH, no DEC, and its history kept. -/
def Obligations.CorruptedInvertedByteIsCaught : Prop :=
  (∀ (a c : Byte) (i : Nat), (8 ≤ i ∧ i ≤ 15) ∨ (24 ≤ i ∧ i ≤ 31) →
    extract ((~~~c ++ c ++ ~~~a ++ a) ^^^ (1#32 <<< i)) false = .fail) ∧
  (∀ (a c : Byte) (i : Nat), 24 ≤ i ∧ i ≤ 31 →
    extract ((~~~c ++ c ++ ~~~a ++ a) ^^^ (1#32 <<< i)) true = .fail) ∧
  (∀ (s : State) (ts : Timestamp),
    s.regs.en = true → s.regs.st = .asStop → s.hits .lp ts = false → s.hits .bp ts = true →
    extract s.regs.raw s.regs.ext = .fail →
    exec (.edgeFall ts) s = .next (s.answer (s.regs.edged .falling (s.timeOf ts)).dropped
      (errorRecord s.regs.errEn 4#3 s.regs.tmoTag)))

/-- R103: the 8-bit variant accepts only complementary address bytes and gives A0; the extended one never checks them and gives
A0 for a complementary pair and {A1, A0} for any other; so what the 8-bit variant accepts reads the same in both. -/
def Obligations.AddressFormsOfBothVariants : Prop :=
  (∀ (raw : BitVec 32) (cmd : Byte) (addr : BitVec 16) (xa : Bool), extract raw false = .ok cmd addr xa →
    raw.extractLsb' 0 8 = ~~~(raw.extractLsb' 8 8) ∧ addr = (raw.extractLsb' 0 8).setWidth 16 ∧ xa = false) ∧
  (∀ raw : BitVec 32, raw.extractLsb' 16 8 = ~~~(raw.extractLsb' 24 8) → raw.extractLsb' 0 8 = ~~~(raw.extractLsb' 8 8) →
    extract raw true = .ok (raw.extractLsb' 16 8) ((raw.extractLsb' 0 8).setWidth 16) false) ∧
  (∀ raw : BitVec 32, raw.extractLsb' 16 8 = ~~~(raw.extractLsb' 24 8) → raw.extractLsb' 0 8 ≠ ~~~(raw.extractLsb' 8 8) →
    extract raw true = .ok (raw.extractLsb' 16 8) (raw.extractLsb' 8 8 ++ raw.extractLsb' 0 8) true) ∧
  (∀ (raw : BitVec 32) (cmd : Byte) (addr : BitVec 16) (xa : Bool),
    extract raw false = .ok cmd addr xa → extract raw true = .ok cmd addr xa)

/-- The layout of a result word, field by field (from R61), and what the fields of a driven word hold: a fresh word, at the end of a
frame, has DATA_VALID = 1 and the values Extract reads from the frame's RAW (from R104, R106); a repeat word, after a leader, has
the recorded frame's values with DATA_VALID = HIST_VALID (from R29, R85); so DATA_VALID = 0 is a repeat with no frame decoded
before it, and then CMD and ADDR are 0; and ADDR[15:8] = 0 in the 8-bit form. -/
def Obligations.ResultWordLayout : Prop :=
  (∀ (cmd : Byte) (addr : BitVec 16) (rep dv xa : Bool),
    (packDec cmd addr rep dv xa).extractLsb' 0 8 = cmd ∧ (packDec cmd addr rep dv xa).extractLsb' 8 16 = addr ∧
    (packDec cmd addr rep dv xa).getLsbD 24 = rep ∧ (packDec cmd addr rep dv xa).getLsbD 25 = dv ∧
    (packDec cmd addr rep dv xa).getLsbD 26 = xa) ∧
  (∀ (i : Instr) (s t : State), s.Inv → exec i s = .next t → t.out.decV = true →
    ∃ (cmd : Byte) (addr : BitVec 16) (rep dv xa : Bool), t.out.decWord = packDec cmd addr rep dv xa ∧
      (rep = false → s.regs.st = .asStop ∧ dv = true ∧ extract s.regs.raw s.regs.ext = .ok cmd addr xa) ∧
      (rep = true → s.regs.st = .als ∧ dv = s.regs.histValid ∧
        cmd = s.regs.lastCmd ∧ addr = s.regs.lastAddr ∧ xa = s.regs.lastXa) ∧
      (dv = false → rep = true ∧ s.regs.histValid = false ∧ cmd = 0#8 ∧ addr = 0#16) ∧
      (xa = false → addr.extractLsb' 8 8 = 0#8))

/-! ## Errors and outputs -/

/-- R62 and R64, with the idle values of R60: every event from every state drives a legal record. -/
def Obligations.OutputRecordsAreLegal : Prop :=
  (∀ (i : Instr) (s t : State), exec i s = .next t → t.out.Legal) ∧
  (∀ s t : State, step s = .next t → t.out.Legal)

/-- R130 and R62: an error with code c is reported exactly when the block is bound, a handler is registered and the event in this
state is the cause the table gives for c; so codes 0 and 7 are never reported. -/
def Obligations.ErrorCodesNameTheirCause : Prop :=
  ∀ (i : Instr) (s t : State) (c : BitVec 3), exec i s = .next t →
    (t.out.errV = true ∧ t.out.errCode = c ↔ s.regs.en = true ∧ s.regs.errEn = true ∧
      ((c = 1#3 ∧ s.regs.st = .als ∧ ∃ ts, i = .edgeFall ts) ∨
       (c = 2#3 ∧ s.regs.st = .als ∧ ∃ ts, i = .edgeRise ts ∧ s.hits .ls ts = false ∧ s.hits .rs ts = false) ∨
       (c = 3#3 ∧ s.regs.st = .rb ∧ ∃ ts, i = .edgeFall ts ∧
         (s.regs.lastDir = .falling ∨ s.hits .lp ts = false ∧ s.hits .bp ts = false)) ∨
       (c = 3#3 ∧ s.regs.st = .rb ∧ ∃ ts, i = .edgeRise ts ∧
         (s.regs.lastDir = .rising ∨ s.hits .b1 ts = false ∧ s.hits .b0 ts = false)) ∨
       (c = 3#3 ∧ s.regs.st = .asStop ∧
         ((∃ ts, i = .edgeRise ts) ∨ ∃ ts, i = .edgeFall ts ∧ s.hits .lp ts = false ∧ s.hits .bp ts = false)) ∨
       (c = 4#3 ∧ s.regs.st = .asStop ∧ (∃ ts, i = .edgeFall ts ∧ s.hits .lp ts = false ∧ s.hits .bp ts = true) ∧
         (byteC0 s.regs.raw ≠ ~~~(byteC1 s.regs.raw) ∨
           s.regs.ext = false ∧ byteA0 s.regs.raw ≠ ~~~(byteA1 s.regs.raw))) ∨
       (c = 5#3 ∧ s.regs.st ≠ .idle ∧ i = .timeout s.regs.tmoTag) ∨
       (c = 6#3 ∧ (s.regs.st = .rb ∧ s.regs.lastDir = .rising ∨ s.regs.st = .asStop) ∧
         ∃ ts, i = .edgeFall ts ∧ s.hits .lp ts = true)))

/-- The error exit is precise (from R133 and R112): a step that reports an error delivers nothing, drops the attempt, keeps every
other register but the edge reference, records the edge if an edge raised it, and cancels the timeout unless it was the
timeout. -/
def Obligations.ErrorReportDropsTheAttempt : Prop :=
  ∀ (i : Instr) (s t : State), exec i s = .next t → t.out.errV = true →
    t.out.decV = false ∧ s.regs.en = true ∧
    ((∃ g, i = .timeout g ∧ t.regs = s.regs.dropped ∧ t.out.tmrCmd = 0b00#2) ∨
     (∃ ts, i = .edgeRise ts ∧ t.regs = (s.regs.edged .rising (s.timeOf ts)).dropped ∧
        t.out.tmrCmd = 0b10#2 ∧ t.out.tmrTag = s.regs.tmoTag) ∨
     (∃ ts, i = .edgeFall ts ∧ t.regs = (s.regs.edged .falling (s.timeOf ts)).dropped ∧
        t.out.tmrCmd = 0b10#2 ∧ t.out.tmrTag = s.regs.tmoTag))

/-- R134: ReportError drives err_v and err_code exactly while a handler is registered, no event reports without one, and ERR_EN changes nothing else: two runs that differ only
in ERR_EN keep the same registers and drive the same DEC, TMR and BIND_FAIL outputs. -/
def Obligations.ErrorHandlerOnlyObserves : Prop :=
  (∀ (e : ErrorCode) (s : State), reportError e s =
    s.answer s.regs (if s.regs.errEn then { s.out with errV := true, errCode := e.code } else s.out)) ∧
  (∀ (i : Instr) (s t : State), exec i s = .next t → t.out.errV = true → s.regs.errEn = true) ∧
  (∀ s s' t t' : State, s.withoutErr = s'.withoutErr → step s = .next t → step s' = .next t' →
    t.withoutErr = t'.withoutErr) ∧
  (∀ (k : Nat) (s : State) (e : Bool),
    (observe k s).map Output.withoutErr = (observe k { s with regs := { s.regs with errEn := e } }).map Output.withoutErr)

/-- In IDLE no error is ever raised (from R95 and C2). -/
def Obligations.NoErrorInIdle : Prop :=
  ∀ (i : Instr) (s t : State), exec i s = .next t → s.regs.st = .idle → t.out.errV = false

/-- R132: every event in every state has a next state, so has every step, and the only failure a caller sees is the refused
ENABLE. -/
def Obligations.NoEventFaults : Prop :=
  (∀ (i : Instr) (s : State), ∃ t, exec i s = .next t ∧
    (t.out.bindFail = true ↔ s.regs.en = true ∧ ∃ x, i = .enable x)) ∧
  (∀ s : State, ∃ t, step s = .next t)

/-! ## Whole-machine rules -/

/-- From R150: RST puts every register at 0, drives every output idle and cancels nothing; a TIMEOUT held from before it is ignored
while unbound and, after an ENABLE, while in IDLE; the first RESTART then makes TMO_TAG 1 and sends tag 1; and the Edge Timer of
the closed system holds no pending and no dead timeout (this last clause speaks of the model's environment, log 10). -/
def Obligations.HardwareResetClearsEverything : Prop :=
  (∀ s : State, step (s.present .rst) = .next (s.answer
    ⟨false, false, false, .idle, 0#6, 0#32, 0#32, false, .rising, 0#4, false, 0#8, 0#16, false⟩
    ⟨false, 0#27, false, 0#3, 0b00#2, 0#4, false⟩)) ∧
  (∀ (s t : State) (g : Tag), step (s.present .rst) = .next t → exec (.timeout g) t = .next (t.answer t.regs Output.idle)) ∧
  (∀ (s : State) (g : Tag), s.regs.st = .idle → exec (.timeout g) s = .next (s.answer s.regs Output.idle)) ∧
  (∀ (s t u : State) (x : Bool), step (s.present .rst) = .next t → exec (.enable x) t = .next u →
    u.regs.st = .idle ∧ (timerRestart u).regs.tmoTag = 1#4 ∧ (timerRestart u).out = restartRecord 1#4) ∧
  (∀ (env : EnvParams) (y z : System), y.act env .reset = some z → z.timer.pending = none ∧ z.timer.dead = [])

/-- The state right after reset meets the invariant, for the default and for every legal choice of parameters. -/
def Obligations.ResetMeetsTheInvariant : Prop :=
  State.reset.Inv ∧ ∀ p : Params, p.Legal → (State.resetWith p).Inv

/-- The invariant, R33 with the legality of the parameters and the width of T_LAST (R7, R20; log 5), holds of a legal build whose
registers are at reset, and every step keeps it. -/
def Obligations.StepKeepsTheInvariant : Prop :=
  (∀ s : State, s.cfg.Legal → s.regs = Regs.reset → s.Inv) ∧
  (∀ s t : State, s.Inv → step s = .next t → t.Inv)

/-- From R34 and R150: the block is armed after a step exactly when the last timer request was a RESTART with no CANCEL, honoured TIMEOUT or
RST after it: a RESTART arms, a CANCEL, an honoured TIMEOUT and RST disarm, and any other step leaves it as it was. -/
def Obligations.ArmedFollowsTheTimerRequests : Prop :=
  ∀ (x : Input) (s t : State), s.Inv → step (s.present x) = .next t →
    (t.Armed ↔
      t.out.tmrCmd = 0b01#2 ∨
      (t.out.tmrCmd = 0b00#2 ∧ s.Armed ∧ x ≠ .rst ∧
        ∀ w, x = .event w → decode w ≠ .timeout s.regs.tmoTag)) ∧
    (¬ s.Armed → t.Armed → t.out.tmrCmd = 0b01#2) ∧
    (s.Armed → ¬ t.Armed → t.out.tmrCmd = 0b10#2 ∨ x = .rst ∨
      ∃ w, x = .event w ∧ decode w = .timeout s.regs.tmoTag ∧ t.out.tmrCmd = 0b00#2)

/-- TMO_TAG moves only with a RESTART, which sends its new value, or to 0 with ENABLE and CLOSE; a CANCEL carries the tag held
before the step (from R28, R110, R111, R119). -/
def Obligations.TagMovesOnlyWithRestart : Prop :=
  ∀ (i : Instr) (s t : State), exec i s = .next t →
    (t.out.tmrCmd = 0b01#2 → t.regs.tmoTag = s.regs.tmoTag + 1#4 ∧ t.out.tmrTag = t.regs.tmoTag) ∧
    (t.out.tmrCmd = 0b10#2 → t.out.tmrTag = s.regs.tmoTag) ∧
    (t.out.tmrCmd ≠ 0b01#2 → t.regs.tmoTag = s.regs.tmoTag ∨
      (t.regs.tmoTag = 0#4 ∧ (i = .close ∨ ∃ x, i = .enable x)))

/-- EN, EXT and ERR_EN are written by ENABLE, SETERR and CLOSE alone, as R22 says; no event changes the parameters or the
inputs still to come. -/
def Obligations.ControlFieldsFrame : Prop :=
  ∀ (i : Instr) (s t : State), exec i s = .next t →
    t.cfg = s.cfg ∧ t.port = s.port ∧
    (t.regs.en, t.regs.ext, t.regs.errEn) =
      match i with
      | .enable x => if s.regs.en then (s.regs.en, s.regs.ext, s.regs.errEn) else (true, x, false)
      | .setErr e => if s.regs.en then (s.regs.en, s.regs.ext, e) else (s.regs.en, s.regs.ext, s.regs.errEn)
      | .close => if s.regs.en then (false, false, false) else (s.regs.en, s.regs.ext, s.regs.errEn)
      | .nop | .edgeRise _ | .edgeFall _ | .timeout _ | .rsvd6 | .rsvd7 => (s.regs.en, s.regs.ext, s.regs.errEn)

/-- The history is the last validated frame (from R29, R104): a step keeps it, or clears it with ENABLE or CLOSE, or replaces it
by the command, address and form of the fresh result it delivers. -/
def Obligations.HistoryIsTheLastValidatedFrame : Prop :=
  ∀ (i : Instr) (s t : State), exec i s = .next t →
    ((t.regs.histValid, t.regs.lastCmd, t.regs.lastAddr, t.regs.lastXa) =
      (s.regs.histValid, s.regs.lastCmd, s.regs.lastAddr, s.regs.lastXa) ∧
      ¬ (t.out.decV = true ∧ t.out.decWord.getLsbD 24 = false)) ∨
    ((i = .close ∨ ∃ x, i = .enable x) ∧ t.regs.histValid = false ∧ t.regs.lastCmd = 0#8 ∧ t.regs.lastAddr = 0#16 ∧
      t.regs.lastXa = false ∧ t.out.decV = false) ∨
    (t.out.decV = true ∧ t.out.decWord.getLsbD 24 = false ∧ t.regs.histValid = true ∧
      t.regs.lastCmd = t.out.decWord.extractLsb' 0 8 ∧ t.regs.lastAddr = t.out.decWord.extractLsb' 8 16 ∧
      t.regs.lastXa = t.out.decWord.getLsbD 26)

/-- A result is delivered only for a frame whose checks pass, at the falling edge of its stop pulse, or for a repeat space after a
leader (from R85, R93, R102). -/
def Obligations.ResultsAreJustified : Prop :=
  ∀ (i : Instr) (s t : State), exec i s = .next t → t.out.decV = true →
    s.regs.en = true ∧
    ((∃ ts, i = .edgeFall ts ∧ s.regs.st = .asStop ∧ s.hits .bp ts = true ∧
        byteC0 s.regs.raw = ~~~(byteC1 s.regs.raw) ∧
        (s.regs.ext = false → byteA0 s.regs.raw = ~~~(byteA1 s.regs.raw)) ∧
        t.out.decWord.extractLsb' 0 8 = byteC0 s.regs.raw ∧ t.out.decWord.getLsbD 24 = false ∧
        t.out.decWord.getLsbD 25 = true) ∨
     (∃ ts, i = .edgeRise ts ∧ s.regs.st = .als ∧ s.hits .rs ts = true ∧ t.out.decWord.getLsbD 24 = true))

/-- Under the default windows a RESTART outside IDLE answers a gap of at most 5625 µs, and of at most 2109 µs after a bit or a bit
pulse (from R114). -/
def Obligations.AdvancingGapIsBounded : Prop :=
  ∀ (s t : State) (ts : Timestamp), s.cfg.windows = Windows.default → s.regs.st ≠ .idle →
    (exec (.edgeRise ts) s = .next t ∨ exec (.edgeFall ts) s = .next t) → t.out.tmrCmd = 0b01#2 →
    1 ≤ interval ts s ∧ interval ts s ≤ 5625 ∧ (s.regs.st = .rb → interval ts s ≤ 2109)

/-- An edge later than every window and a current timeout, pending together at an armed block, end in the same registers in
either order, in IDLE, with no DEC; the orders differ in the error code and in the CANCEL (from R140). That the edge is later than every window is R140's account of
such an edge; the closed system does not make it a duty (log 14). -/
def Obligations.EdgeAndDueTimeoutCommute : Prop :=
  ∀ (s : State) (e : Instr) (ts : Timestamp), s.Armed → (e = .edgeRise ts ∨ e = .edgeFall ts) →
    (∀ k : Category, ((s.cfg.windows.get k).hi : Int) < interval ts s) →
    ∃ a b c d : State, exec e s = .next a ∧ exec (.timeout s.regs.tmoTag) a = .next b ∧
      exec (.timeout s.regs.tmoTag) s = .next c ∧ exec e c = .next d ∧
      b.regs = d.regs ∧ b.regs.st = .idle ∧
      a.out.decV = false ∧ a.out.tmrCmd = 0b10#2 ∧ (a.out.errV = true → a.out.errCode = 1#3 ∨ a.out.errCode = 2#3 ∨ a.out.errCode = 3#3) ∧
      b.out = Output.idle ∧
      c.out = (if s.regs.errEn then { Output.idle with errV := true, errCode := 5#3 } else Output.idle) ∧
      d.out = Output.idle

/-- The block and an Edge Timer that keeps its contract stay in step, whatever TIMER_LATENCY and ARBITRATION are: at boot and after
every action, a timeout is scheduled exactly while the block is armed, with the current tag (from R34, R137, R138, R153; the
environment is that of log 10). -/
def Obligations.ContractKeepsTimerInStep : Prop :=
  (∀ p : Params, p.Legal → (System.boot p).InStep) ∧
  (∀ (env : EnvParams) (a : EnvAction) (y z : System), y.InStep → y.act env a = some z → z.InStep)

/-- Under that contract a timeout delivered on time is never stale: it ends the live frame; and a dead one delivered late changes
no register and drives every output idle (from R112, R138, R157; the environment is that of log 10). -/
def Obligations.DeliveredTimeoutIsHonoured : Prop :=
  (∀ (env : EnvParams) (y z : System), y.InStep → y.act env .presentTimeout = some z →
    y.block.Armed ∧ z.block.regs = y.block.regs.dropped ∧
    z.block.out = (if y.block.regs.errEn then { Output.idle with errV := true, errCode := 5#3 } else Output.idle)) ∧
  (∀ (env : EnvParams) (y z : System) (g : Tag) (armedAt : Nat), y.act env (.presentLate g armedAt) = some z →
    z.block.regs = y.block.regs ∧ z.block.out = Output.idle)

/-- The headline: from any bound idle state, a transmission whose every interval lies in its window (whatever its start, its jitter
and the counter's wraps) is received as the word it carries: 67 edges with no DEC and no ERR, and at the 68th the word's fields
are delivered and recorded, or, if a check fails, CHECKSUM_MISMATCH is reported to a registered handler (from R82 to R106, and
95_test_vectors.md W2 and W6). -/
def Obligations.WellTimedFrameIsReceived : Prop :=
  ∀ (s : State) (f : FrameTiming), s.Inv → s.regs.en = true → s.regs.st = .idle → f.wellTimed s.cfg.windows = true →
    s.port = edgeInputs s.cfg.tsWidth f.edges →
    (∀ o ∈ observe 67 s, o.Silent) ∧
    ∃ t, runSteps 68 s = .next t ∧ t.port = [] ∧ t.regs.st = .idle ∧
      (match extract (f.raw s.cfg.windows) s.regs.ext with
       | .ok cmd addr xa =>
         t.out = decRecord (packDec cmd addr false true xa) t.regs.tmoTag ∧
         t.regs.histValid = true ∧ t.regs.lastCmd = cmd ∧ t.regs.lastAddr = addr ∧ t.regs.lastXa = xa
       | .fail =>
         t.out = errorRecord s.regs.errEn 4#3 t.regs.tmoTag ∧
         t.regs.histValid = s.regs.histValid ∧ t.regs.lastCmd = s.regs.lastCmd ∧ t.regs.lastAddr = s.regs.lastAddr ∧
         t.regs.lastXa = s.regs.lastXa)

/-- The NEC.FRAME pseudo-instruction of R59 writes 68 edges with the nominal intervals, which are well timed under the default
windows and carry raw. -/
def Obligations.NominalFrameIsWellTimed : Prop :=
  ∀ (t0 : Nat) (raw : BitVec 32),
    let f : FrameTiming :=
      ⟨t0, 9000, 4500, (sentBits raw).map (fun b => (563, if b then 1687 else 562)), 563⟩
    (frameEvents t0 raw).length = 68 ∧ frameEvents t0 raw = f.edges.map (fun e => edgeEvent 32 e.1 e.2) ∧
    f.wellTimed Windows.default = true ∧ f.raw Windows.default = raw

/-- Under the contract no dead timeout ever carries the tag of a live frame, at boot and after every action, RST among them: so
none of them could end one (from R157; the environment is that of log 10). -/
def Obligations.DeadTimeoutsNeverMatch : Prop :=
  (∀ p : Params, (System.boot p).DeadUnmatched) ∧
  (∀ (env : EnvParams) (a : EnvAction) (y z : System), y.InStep → y.DeadUnmatched → y.act env a = some z → z.DeadUnmatched)
end

