-- ==== Sys2Proof/Laws/Classifier.lean ====
section
/-! SUPPORT. The interval and the classifier in integer arithmetic. -/

namespace Sys2Proof.Machine

@[simp] theorem inWindow_iff (k : Window) (d : Int) : inWindow k d = true ↔ (k.lo : Int) ≤ d ∧ d ≤ (k.hi : Int) := by
  simp [inWindow]

theorem classify_get (w : Windows) (k : Category) (d : Int) : (classify w d).get k = inWindow (w.get k) d := by
  cases k <;> rfl

theorem edgeTime_toNat (W : Nat) (ts : Timestamp) : (edgeTime W ts).toNat = ts.toNat % 2 ^ W := by
  have h : ts.toNat % 2 ^ W < 2 ^ 32 := lt_of_le_of_lt (Nat.mod_le _ _) ts.isLt
  simp only [edgeTime, BitVec.toNat_ofNat, Nat.mod_eq_of_lt h]

theorem edgeTime_lt (W : Nat) (ts : Timestamp) : (edgeTime W ts).toNat < 2 ^ W := by
  rw [edgeTime_toNat]; exact Nat.mod_lt _ (by positivity)

/-- The interval between an edge and one δ µs later is δ, whatever the wraps, when δ is shorter than half the modulus. -/
theorem sdiff_of_congr (W : Nat) (t u : Timestamp) (δ : Nat) (hW : 1 ≤ W) (hδ : δ < 2 ^ (W - 1))
    (h : t.toNat % 2 ^ W = (u.toNat + δ) % 2 ^ W) : sdiffW W t u = δ := by
  have e : (2 : Nat) ^ W = 2 * 2 ^ (W - 1) := by rw [← pow_succ', Nat.sub_add_cancel hW]
  have hx : ((t.toNat : Int) - (u.toNat : Int)) % ((2 ^ W : Nat) : Int) = δ := by
    have h' : ((t.toNat : Int)) % ((2 ^ W : Nat) : Int) = ((u.toNat : Int) + δ) % ((2 ^ W : Nat) : Int) := by
      exact_mod_cast h
    have : ((t.toNat : Int) - (u.toNat : Int)) % ((2 ^ W : Nat) : Int) = ((u.toNat : Int) + δ - u.toNat) % ((2 ^ W : Nat) : Int) :=
      Int.ModEq.sub_right (u.toNat : Int) (show _ ≡ _ [ZMOD _] from h')
    rw [this, add_sub_cancel_left]
    exact Int.emod_eq_of_lt (by positivity) (by exact_mod_cast (by omega : δ < 2 ^ W))
  simp only [sdiffW, hx]
  rw [if_neg (by exact_mod_cast (by omega : ¬ 2 ^ (W - 1) ≤ δ))]

end Sys2Proof.Machine
end

