-- ==== Sys2Proof/Laws/Decode.lean ====
section
/-! SUPPORT. The fields of a packed event word (spec/30_encoding.md R50), each read back, and the decoder by its opcode (R65). -/

namespace Sys2Proof

theorem evOp_packEvent (ts : Timestamp) (arg : BitVec 4) (dir : BitVec 1) (op : BitVec 3) :
    evOp (packEvent ts arg dir op) = op := by
  ext i hi
  simp only [evOp, packEvent, BitVec.getElem_extractLsb', Nat.zero_add, BitVec.getLsbD_append, hi, if_true]
  exact (BitVec.getLsbD_eq_getElem hi)

theorem evDir_packEvent (ts : Timestamp) (arg : BitVec 4) (dir : BitVec 1) (op : BitVec 3) :
    evDir (packEvent ts arg dir op) = dir := by
  ext i hi
  simp only [evDir, packEvent, BitVec.getElem_extractLsb', BitVec.getLsbD_append]
  rw [if_neg (by omega), if_pos (by omega), Nat.add_sub_cancel_left]
  exact (BitVec.getLsbD_eq_getElem hi)

theorem evArg_packEvent (ts : Timestamp) (arg : BitVec 4) (dir : BitVec 1) (op : BitVec 3) :
    evArg (packEvent ts arg dir op) = arg := by
  ext i hi
  simp only [evArg, packEvent, BitVec.getElem_extractLsb', BitVec.getLsbD_append]
  rw [if_neg (by omega), if_neg (by omega), if_pos (by omega), show 4 + i - 3 - 1 = i by omega]
  exact (BitVec.getLsbD_eq_getElem hi)

theorem evTs_packEvent (ts : Timestamp) (arg : BitVec 4) (dir : BitVec 1) (op : BitVec 3) :
    evTs (packEvent ts arg dir op) = ts := by
  ext i hi
  simp only [evTs, packEvent, BitVec.getElem_extractLsb', BitVec.getLsbD_append]
  rw [if_neg (by omega), if_neg (by omega), if_neg (by omega), show 8 + i - 3 - 1 - 4 = i by omega]
  exact (BitVec.getLsbD_eq_getElem hi)

theorem arg1_getLsbD_zero (b : Bool) : (arg1 b).getLsbD 0 = b := by cases b <;> rfl

/-- Every word is the packing of its fields. -/
theorem packEvent_fields (w : EventWord) : packEvent (evTs w) (evArg w) (evDir w) (evOp w) = w := by
  apply BitVec.eq_of_getLsbD_eq; intro i hi
  simp only [packEvent, BitVec.getLsbD_append, evTs, evArg, evDir, evOp, BitVec.getLsbD_extractLsb']
  by_cases h1 : i < 3
  · simp [h1]
  · rw [if_neg h1]
    by_cases h2 : i - 3 < 1
    · rw [if_pos h2]; simp [h2]; congr 1; omega
    · rw [if_neg h2]
      by_cases h3 : i - 3 - 1 < 4
      · rw [if_pos h3]; simp [h3]; congr 1; omega
      · rw [if_neg h3]; simp [show i - 3 - 1 - 4 < 32 by omega]; congr 1; omega

/-- Masking packed words field by field. -/
theorem packEvent_and (ts ts' : Timestamp) (a a' : BitVec 4) (d d' : BitVec 1) (o o' : BitVec 3) :
    packEvent ts a d o &&& packEvent ts' a' d' o' = packEvent (ts &&& ts') (a &&& a') (d &&& d') (o &&& o') := by
  apply BitVec.eq_of_getLsbD_eq; intro i hi
  simp only [packEvent, BitVec.getLsbD_append, BitVec.getLsbD_and]
  repeat' split
  all_goals rfl

/-- The eight values of OP. -/
theorem op_cases (o : BitVec 3) :
    o = 0#3 ∨ o = 1#3 ∨ o = 2#3 ∨ o = 3#3 ∨ o = 4#3 ∨ o = 5#3 ∨ o = 6#3 ∨ o = 7#3 := by
  revert o; decide

theorem decode_nop {w : EventWord} (h : evOp w = 0#3) : decode w = .nop := by simp [decode, h]

theorem decode_edge {w : EventWord} (h : evOp w = 1#3) :
    decode w = if evDir w = 0#1 then .edgeRise (evTs w) else .edgeFall (evTs w) := by
  simp [decode, h]

theorem decode_timeout {w : EventWord} (h : evOp w = 2#3) : decode w = .timeout (evArg w) := by simp [decode, h]

theorem decode_enable {w : EventWord} (h : evOp w = 3#3) : decode w = .enable (evArg0 w) := by simp [decode, h]

theorem decode_setErr {w : EventWord} (h : evOp w = 4#3) : decode w = .setErr (evArg0 w) := by simp [decode, h]

theorem decode_close {w : EventWord} (h : evOp w = 5#3) : decode w = .close := by simp [decode, h]

theorem decode_rsvd6 {w : EventWord} (h : evOp w = 6#3) : decode w = .rsvd6 := by simp [decode, h]

theorem decode_rsvd7 {w : EventWord} (h : evOp w = 7#3) : decode w = .rsvd7 := by simp [decode, h]

end Sys2Proof
end

