-- ==== Sys2Proof/Laws/State.lean ====
section
/-! SUPPORT. One lemma per field of State and per update, each true by rfl, so that no proof unfolds a record update. -/

namespace Sys2Proof.Machine

@[simp] theorem State.quiet_cfg (s : State) : s.quiet.cfg = s.cfg := rfl
@[simp] theorem State.quiet_regs (s : State) : s.quiet.regs = s.regs := rfl
@[simp] theorem State.quiet_out (s : State) : s.quiet.out = Output.idle := rfl
@[simp] theorem State.quiet_port (s : State) : s.quiet.port = s.port := rfl

@[simp] theorem State.setSt_cfg (f : FrameState) (s : State) : (s.setSt f).cfg = s.cfg := rfl
@[simp] theorem State.setSt_regs (f : FrameState) (s : State) : (s.setSt f).regs = { s.regs with st := f } := rfl
@[simp] theorem State.setSt_out (f : FrameState) (s : State) : (s.setSt f).out = s.out := rfl
@[simp] theorem State.setSt_port (f : FrameState) (s : State) : (s.setSt f).port = s.port := rfl

@[simp] theorem State.clearBits_cfg (s : State) : s.clearBits.cfg = s.cfg := rfl
@[simp] theorem State.clearBits_regs (s : State) : s.clearBits.regs = { s.regs with bitcnt := 0#6, raw := 0#32 } := rfl
@[simp] theorem State.clearBits_out (s : State) : s.clearBits.out = s.out := rfl
@[simp] theorem State.clearBits_port (s : State) : s.clearBits.port = s.port := rfl

@[simp] theorem State.setTmoTag_cfg (g : Tag) (s : State) : (s.setTmoTag g).cfg = s.cfg := rfl
@[simp] theorem State.setTmoTag_regs (g : Tag) (s : State) : (s.setTmoTag g).regs = { s.regs with tmoTag := g } := rfl
@[simp] theorem State.setTmoTag_out (g : Tag) (s : State) : (s.setTmoTag g).out = s.out := rfl
@[simp] theorem State.setTmoTag_port (g : Tag) (s : State) : (s.setTmoTag g).port = s.port := rfl

@[simp] theorem State.setErrEn_cfg (e : Bool) (s : State) : (s.setErrEn e).cfg = s.cfg := rfl
@[simp] theorem State.setErrEn_regs (e : Bool) (s : State) : (s.setErrEn e).regs = { s.regs with errEn := e } := rfl
@[simp] theorem State.setErrEn_out (e : Bool) (s : State) : (s.setErrEn e).out = s.out := rfl
@[simp] theorem State.setErrEn_port (e : Bool) (s : State) : (s.setErrEn e).port = s.port := rfl

@[simp] theorem State.setHistory_cfg (c : Byte) (a : BitVec 16) (x : Bool) (s : State) : (s.setHistory c a x).cfg = s.cfg := rfl
@[simp] theorem State.setHistory_regs (c : Byte) (a : BitVec 16) (x : Bool) (s : State) : (s.setHistory c a x).regs = { s.regs with histValid := true, lastCmd := c, lastAddr := a, lastXa := x } := rfl
@[simp] theorem State.setHistory_out (c : Byte) (a : BitVec 16) (x : Bool) (s : State) : (s.setHistory c a x).out = s.out := rfl
@[simp] theorem State.setHistory_port (c : Byte) (a : BitVec 16) (x : Bool) (s : State) : (s.setHistory c a x).port = s.port := rfl

@[simp] theorem State.resetRegs_cfg (s : State) : s.resetRegs.cfg = s.cfg := rfl
@[simp] theorem State.resetRegs_regs (s : State) : s.resetRegs.regs = Regs.reset := rfl
@[simp] theorem State.resetRegs_out (s : State) : s.resetRegs.out = s.out := rfl
@[simp] theorem State.resetRegs_port (s : State) : s.resetRegs.port = s.port := rfl

@[simp] theorem State.setPort_cfg (p : List Input) (s : State) : (s.setPort p).cfg = s.cfg := rfl
@[simp] theorem State.setPort_regs (p : List Input) (s : State) : (s.setPort p).regs = s.regs := rfl
@[simp] theorem State.setPort_out (p : List Input) (s : State) : (s.setPort p).out = s.out := rfl
@[simp] theorem State.setPort_port (p : List Input) (s : State) : (s.setPort p).port = p := rfl

@[simp] theorem State.present_cfg (x : Input) (s : State) : (s.present x).cfg = s.cfg := rfl
@[simp] theorem State.present_regs (x : Input) (s : State) : (s.present x).regs = s.regs := rfl
@[simp] theorem State.present_out (x : Input) (s : State) : (s.present x).out = s.out := rfl
@[simp] theorem State.present_port (x : Input) (s : State) : (s.present x).port = x :: s.port := rfl

@[simp] theorem recordEdge_cfg (d : Dir) (ts : Timestamp) (s : State) : (recordEdge d ts s).cfg = s.cfg := rfl
@[simp] theorem recordEdge_regs (d : Dir) (ts : Timestamp) (s : State) : (recordEdge d ts s).regs = { s.regs with tLast := edgeTime s.cfg.tsWidth ts, haveLast := true, lastDir := d } := rfl
@[simp] theorem recordEdge_out (d : Dir) (ts : Timestamp) (s : State) : (recordEdge d ts s).out = s.out := rfl
@[simp] theorem recordEdge_port (d : Dir) (ts : Timestamp) (s : State) : (recordEdge d ts s).port = s.port := rfl

@[simp] theorem emitDec_cfg (c : Byte) (a : BitVec 16) (r v x : Bool) (s : State) : (emitDec c a r v x s).cfg = s.cfg := rfl
@[simp] theorem emitDec_regs (c : Byte) (a : BitVec 16) (r v x : Bool) (s : State) : (emitDec c a r v x s).regs = s.regs := rfl
@[simp] theorem emitDec_out (c : Byte) (a : BitVec 16) (r v x : Bool) (s : State) : (emitDec c a r v x s).out = { s.out with decV := true, decWord := packDec c a r v x } := rfl
@[simp] theorem emitDec_port (c : Byte) (a : BitVec 16) (r v x : Bool) (s : State) : (emitDec c a r v x s).port = s.port := rfl

@[simp] theorem emitErr_cfg (e : ErrorCode) (s : State) : (emitErr e s).cfg = s.cfg := rfl
@[simp] theorem emitErr_regs (e : ErrorCode) (s : State) : (emitErr e s).regs = s.regs := rfl
@[simp] theorem emitErr_out (e : ErrorCode) (s : State) : (emitErr e s).out = { s.out with errV := true, errCode := e.code } := rfl
@[simp] theorem emitErr_port (e : ErrorCode) (s : State) : (emitErr e s).port = s.port := rfl

@[simp] theorem emitTmr_cfg (c : TmrCmd) (g : Tag) (s : State) : (emitTmr c g s).cfg = s.cfg := rfl
@[simp] theorem emitTmr_regs (c : TmrCmd) (g : Tag) (s : State) : (emitTmr c g s).regs = s.regs := rfl
@[simp] theorem emitTmr_out (c : TmrCmd) (g : Tag) (s : State) : (emitTmr c g s).out = { s.out with tmrCmd := c.code, tmrTag := g } := rfl
@[simp] theorem emitTmr_port (c : TmrCmd) (g : Tag) (s : State) : (emitTmr c g s).port = s.port := rfl

@[simp] theorem emitBindFail_cfg (s : State) : (emitBindFail s).cfg = s.cfg := rfl
@[simp] theorem emitBindFail_regs (s : State) : (emitBindFail s).regs = s.regs := rfl
@[simp] theorem emitBindFail_out (s : State) : (emitBindFail s).out = { s.out with bindFail := true } := rfl
@[simp] theorem emitBindFail_port (s : State) : (emitBindFail s).port = s.port := rfl

@[simp] theorem storeBit_cfg (b : Bool) (s : State) : (storeBit b s).cfg = s.cfg := rfl
@[simp] theorem storeBit_regs (b : Bool) (s : State) : (storeBit b s).regs = { s.regs with raw := setBit s.regs.raw s.regs.bitcnt.toNat b, bitcnt := s.regs.bitcnt + 1#6 } := rfl
@[simp] theorem storeBit_out (b : Bool) (s : State) : (storeBit b s).out = s.out := rfl
@[simp] theorem storeBit_port (b : Bool) (s : State) : (storeBit b s).port = s.port := rfl

/-! The record is presented and taken off again: the two port updates undo each other. -/

@[simp] theorem State.setPort_present (x : Input) (s : State) : (s.present x).setPort s.port = s := rfl

@[simp] theorem State.setPort_self (s : State) : s.setPort s.port = s := rfl

/-- Two states with the same four fields are the same. -/
theorem State.eq_of_fields {s t : State} (hc : s.cfg = t.cfg) (hr : s.regs = t.regs) (ho : s.out = t.out)
    (hp : s.port = t.port) : s = t := by
  cases s; cases t; simp_all

end Sys2Proof.Machine
end

