-- ==== Sys2Proof/Laws/Ops.lean ====
section
/-! SUPPORT. What each shared operation does, said once: registers, record, parameters and port. -/

namespace Sys2Proof.Machine

/-! ## Timer requests (R110, R111) -/

@[simp] theorem timerRestart_regs (s : State) :
    (timerRestart s).regs = { s.regs with tmoTag := s.regs.tmoTag + 1#4 } := rfl
@[simp] theorem timerRestart_out (s : State) :
    (timerRestart s).out = { s.out with tmrCmd := 1#2, tmrTag := s.regs.tmoTag + 1#4 } := rfl
@[simp] theorem timerRestart_cfg (s : State) : (timerRestart s).cfg = s.cfg := rfl
@[simp] theorem timerRestart_port (s : State) : (timerRestart s).port = s.port := rfl

/-! ## The return to IDLE and the error exit (R96, R133, R134) -/

@[simp] theorem clearAttempt_regs (s : State) :
    (clearAttempt s).regs = { s.regs with st := .idle, bitcnt := 0#6, raw := 0#32 } := rfl
@[simp] theorem clearAttempt_out (s : State) : (clearAttempt s).out = s.out := rfl
@[simp] theorem clearAttempt_cfg (s : State) : (clearAttempt s).cfg = s.cfg := rfl
@[simp] theorem clearAttempt_port (s : State) : (clearAttempt s).port = s.port := rfl

@[simp] theorem toIdle_regs (s : State) :
    (toIdle s).regs = { s.regs with st := .idle, bitcnt := 0#6, raw := 0#32 } := rfl
@[simp] theorem toIdle_out (s : State) :
    (toIdle s).out = { s.out with tmrCmd := 2#2, tmrTag := s.regs.tmoTag } := rfl
@[simp] theorem toIdle_cfg (s : State) : (toIdle s).cfg = s.cfg := rfl
@[simp] theorem toIdle_port (s : State) : (toIdle s).port = s.port := rfl

@[simp] theorem reportError_regs (e : ErrorCode) (s : State) : (reportError e s).regs = s.regs := by
  unfold reportError; split <;> rfl
@[simp] theorem reportError_out (e : ErrorCode) (s : State) :
    (reportError e s).out = if s.regs.errEn then { s.out with errV := true, errCode := e.code } else s.out := by
  unfold reportError; split <;> rfl
@[simp] theorem reportError_cfg (e : ErrorCode) (s : State) : (reportError e s).cfg = s.cfg := by
  unfold reportError; split <;> rfl
@[simp] theorem reportError_port (e : ErrorCode) (s : State) : (reportError e s).port = s.port := by
  unfold reportError; split <;> rfl

@[simp] theorem raiseError_regs (e : ErrorCode) (s : State) :
    (raiseError e s).regs = { s.regs with st := .idle, bitcnt := 0#6, raw := 0#32 } := by
  simp [raiseError]
@[simp] theorem raiseError_out (e : ErrorCode) (s : State) :
    (raiseError e s).out =
      if s.regs.errEn then { s.out with errV := true, errCode := e.code, tmrCmd := 2#2, tmrTag := s.regs.tmoTag }
      else { s.out with tmrCmd := 2#2, tmrTag := s.regs.tmoTag } := by
  simp only [raiseError, toIdle_out, reportError_out, reportError_regs]; split <;> rfl
@[simp] theorem raiseError_cfg (e : ErrorCode) (s : State) : (raiseError e s).cfg = s.cfg := by
  simp [raiseError]
@[simp] theorem raiseError_port (e : ErrorCode) (s : State) : (raiseError e s).port = s.port := by
  simp [raiseError]

/-! ## Delivery (R85, R104) -/

@[simp] theorem deliver_regs (c : Byte) (a : BitVec 16) (x : Bool) (s : State) :
    (deliver c a x s).regs =
      { s.regs with st := .idle, bitcnt := 0#6, raw := 0#32, histValid := true, lastCmd := c, lastAddr := a, lastXa := x } := rfl
@[simp] theorem deliver_out (c : Byte) (a : BitVec 16) (x : Bool) (s : State) :
    (deliver c a x s).out =
      { s.out with decV := true, decWord := packDec c a false true x, tmrCmd := 2#2, tmrTag := s.regs.tmoTag } := rfl
@[simp] theorem deliver_cfg (c : Byte) (a : BitVec 16) (x : Bool) (s : State) : (deliver c a x s).cfg = s.cfg := rfl
@[simp] theorem deliver_port (c : Byte) (a : BitVec 16) (x : Bool) (s : State) : (deliver c a x s).port = s.port := rfl

@[simp] theorem deliverRepeat_regs (s : State) :
    (deliverRepeat s).regs = { s.regs with st := .idle, bitcnt := 0#6, raw := 0#32 } := rfl
@[simp] theorem deliverRepeat_out (s : State) :
    (deliverRepeat s).out =
      { s.out with decV := true, decWord := packDec s.regs.lastCmd s.regs.lastAddr true s.regs.histValid s.regs.lastXa,
                   tmrCmd := 2#2, tmrTag := s.regs.tmoTag } := rfl
@[simp] theorem deliverRepeat_cfg (s : State) : (deliverRepeat s).cfg = s.cfg := rfl
@[simp] theorem deliverRepeat_port (s : State) : (deliverRepeat s).port = s.port := rfl

/-! ## Frame progress (R84, R91) -/

@[simp] theorem startFrame_regs (s : State) :
    (startFrame s).regs = { s.regs with st := .rb, bitcnt := 0#6, raw := 0#32, tmoTag := s.regs.tmoTag + 1#4 } := rfl
@[simp] theorem startFrame_out (s : State) :
    (startFrame s).out = { s.out with tmrCmd := 1#2, tmrTag := s.regs.tmoTag + 1#4 } := rfl
@[simp] theorem startFrame_cfg (s : State) : (startFrame s).cfg = s.cfg := rfl
@[simp] theorem startFrame_port (s : State) : (startFrame s).port = s.port := rfl

@[simp] theorem bitDone_regs (s : State) :
    (bitDone s).regs =
      { s.regs with st := if s.regs.bitcnt.toNat = frameBits then .asStop else s.regs.st, tmoTag := s.regs.tmoTag + 1#4 } := by
  unfold bitDone; split <;> rfl
@[simp] theorem bitDone_out (s : State) :
    (bitDone s).out = { s.out with tmrCmd := 1#2, tmrTag := s.regs.tmoTag + 1#4 } := by
  unfold bitDone; split <;> rfl
@[simp] theorem bitDone_cfg (s : State) : (bitDone s).cfg = s.cfg := by unfold bitDone; split <;> rfl
@[simp] theorem bitDone_port (s : State) : (bitDone s).port = s.port := by unfold bitDone; split <;> rfl

/-! ## Binding and closing (R116, R119) -/

@[simp] theorem bindDecoder_regs (x : Bool) (s : State) :
    (bindDecoder x s).regs = { Regs.reset with en := true, ext := x } := rfl
@[simp] theorem bindDecoder_out (x : Bool) (s : State) : (bindDecoder x s).out = s.out := rfl
@[simp] theorem bindDecoder_cfg (x : Bool) (s : State) : (bindDecoder x s).cfg = s.cfg := rfl
@[simp] theorem bindDecoder_port (x : Bool) (s : State) : (bindDecoder x s).port = s.port := rfl

@[simp] theorem closeBound_regs (s : State) : (closeBound s).regs = Regs.reset := by
  unfold closeBound; split <;> rfl
@[simp] theorem closeBound_out (s : State) :
    (closeBound s).out = if s.regs.st ≠ .idle then { s.out with tmrCmd := 2#2, tmrTag := s.regs.tmoTag } else s.out := by
  unfold closeBound; split <;> rfl
@[simp] theorem closeBound_cfg (s : State) : (closeBound s).cfg = s.cfg := by unfold closeBound; split <;> rfl
@[simp] theorem closeBound_port (s : State) : (closeBound s).port = s.port := by unfold closeBound; split <;> rfl

/-! ## Timeouts (R112, R113) -/

@[simp] theorem staleTimeout_iff (g : Tag) (s : State) :
    staleTimeout g s = true ↔ s.regs.st = .idle ∨ g ≠ s.regs.tmoTag := by
  simp [staleTimeout]

theorem timeoutBound_stale (g : Tag) (s : State) (h : s.regs.st = .idle ∨ g ≠ s.regs.tmoTag) : timeoutBound g s = s := by
  rw [timeoutBound, if_pos ((staleTimeout_iff g s).2 h)]

theorem timeoutBound_current (s : State) (h : s.regs.st ≠ .idle) :
    timeoutBound s.regs.tmoTag s = clearAttempt (reportError .frameTimeout s) := by
  rw [timeoutBound, if_neg]; simp [h]

/-! ## The gate of EN (R121) -/

@[simp] theorem whenBound_bound (f : State → State) (s : State) (h : s.regs.en = true) : whenBound f s = f s := by
  simp [whenBound, h]

@[simp] theorem whenBound_unbound (f : State → State) (s : State) (h : s.regs.en = false) : whenBound f s = s := by
  simp [whenBound, h]

end Sys2Proof.Machine
end

