-- ==== Sys2Proof/Laws/Edge.lean ====
section
/-! SUPPORT. Everything an edge can do, as case lemmas over the transitions of spec/41_frame_fsm.md R97. A proof about edges
takes its cases from here and never unfolds a transition. -/

namespace Sys2Proof.Machine

/-- Validate delivers a frame or raises (R102). -/
theorem validate_cases (s : State) :
    (∃ a x, validate s = deliver (byteC0 s.regs.raw) a x s ∧ byteC0 s.regs.raw = ~~~(byteC1 s.regs.raw) ∧
      ((byteA0 s.regs.raw = ~~~(byteA1 s.regs.raw) ∧ a = (byteA0 s.regs.raw).setWidth 16 ∧ x = false) ∨
       (byteA0 s.regs.raw ≠ ~~~(byteA1 s.regs.raw) ∧ s.regs.ext = true ∧
        a = byteA1 s.regs.raw ++ byteA0 s.regs.raw ∧ x = true))) ∨
    (validate s = raiseError .checksumMismatch s ∧
      (byteC0 s.regs.raw ≠ ~~~(byteC1 s.regs.raw) ∨
       s.regs.ext = false ∧ byteA0 s.regs.raw ≠ ~~~(byteA1 s.regs.raw))) := by
  unfold validate
  by_cases hc : byteC0 s.regs.raw = ~~~(byteC1 s.regs.raw)
  · by_cases ha : byteA0 s.regs.raw = ~~~(byteA1 s.regs.raw)
    · exact .inl ⟨_, _, by simp only [ne_eq, hc, not_true_eq_false, if_false, ha, if_true], hc, .inl ⟨ha, rfl, rfl⟩⟩
    · cases he : s.regs.ext
      · exact .inr ⟨by simp [hc, ha], .inr ⟨rfl, ha⟩⟩
      · exact .inl ⟨_, _, by simp [hc, ha], hc, .inr ⟨ha, rfl, rfl, rfl⟩⟩
  · exact .inr ⟨by simp [hc], .inl hc⟩

/-- A rising edge on a bound block: one of the rows of R97. -/
theorem riseByState_cases (l : EdgeLocals) (s : State) :
    (s.regs.st = .idle ∧ riseByState l s = s) ∨
    (s.regs.st = .als ∧ l.m.ls = true ∧ riseByState l s = startFrame s) ∨
    (s.regs.st = .als ∧ l.m.ls = false ∧ l.m.rs = true ∧ riseByState l s = deliverRepeat s) ∨
    (s.regs.st = .als ∧ l.m.ls = false ∧ l.m.rs = false ∧ riseByState l s = raiseError .badLeaderSpace s) ∨
    (s.regs.st = .rb ∧ l.prev = .falling ∧ l.m.b1 = true ∧ riseByState l s = bitDone (storeBit true s)) ∨
    (s.regs.st = .rb ∧ l.prev = .falling ∧ l.m.b1 = false ∧ l.m.b0 = true ∧ riseByState l s = bitDone (storeBit false s)) ∨
    (s.regs.st = .rb ∧ (l.prev = .rising ∨ l.m.b1 = false ∧ l.m.b0 = false) ∧
      riseByState l s = raiseError .badBitTiming s) ∨
    (s.regs.st = .asStop ∧ riseByState l s = raiseError .badBitTiming s) := by
  unfold riseByState
  cases hs : s.regs.st
  · simp [idleRise]
  · cases h1 : l.m.ls <;> cases h2 : l.m.rs <;> simp [alsRise, h1, h2]
  · cases h0 : l.prev <;> cases h1 : l.m.b1 <;> cases h2 : l.m.b0 <;> simp [rbRise, h0, h1, h2]
  · simp [asRise]

/-- A falling edge on a bound block: one of the rows of R97. -/
theorem fallByState_cases (l : EdgeLocals) (s : State) :
    (s.regs.st = .idle ∧ l.haveLast = true ∧ l.prev = .rising ∧ l.m.lp = true ∧
      fallByState l s = timerRestart (s.clearBits.setSt .als)) ∨
    (s.regs.st = .idle ∧ (l.haveLast = false ∨ l.prev = .falling ∨ l.m.lp = false) ∧ fallByState l s = s) ∨
    (s.regs.st = .als ∧ fallByState l s = raiseError .badLeader s) ∨
    (s.regs.st = .rb ∧ l.prev = .falling ∧ fallByState l s = raiseError .badBitTiming s) ∨
    (s.regs.st = .rb ∧ l.prev = .rising ∧ l.m.lp = true ∧ fallByState l s = raiseError .overrun s) ∨
    (s.regs.st = .rb ∧ l.prev = .rising ∧ l.m.lp = false ∧ l.m.bp = true ∧ fallByState l s = timerRestart s) ∨
    (s.regs.st = .rb ∧ l.prev = .rising ∧ l.m.lp = false ∧ l.m.bp = false ∧
      fallByState l s = raiseError .badBitTiming s) ∨
    (s.regs.st = .asStop ∧ l.m.lp = true ∧ fallByState l s = raiseError .overrun s) ∨
    (s.regs.st = .asStop ∧ l.m.lp = false ∧ l.m.bp = false ∧ fallByState l s = raiseError .badBitTiming s) ∨
    (s.regs.st = .asStop ∧ l.m.lp = false ∧ l.m.bp = true ∧ fallByState l s = validate s) := by
  unfold fallByState
  cases hs : s.regs.st
  · cases h0 : l.haveLast <;> cases h1 : l.prev <;> cases h2 : l.m.lp <;> simp [idleFall, h0, h1, h2]
  · simp [alsFall]
  · cases h0 : l.prev <;> cases h1 : l.m.lp <;> cases h2 : l.m.bp <;> simp [rbFall, h0, h1, h2]
  · cases h1 : l.m.lp <;> cases h2 : l.m.bp <;> simp [asFall, h1, h2]

/-- An edge writes the parameters and the port no more than any transition does. -/
theorem riseByState_cfg (l : EdgeLocals) (s : State) : (riseByState l s).cfg = s.cfg := by
  obtain h | h | h | h | h | h | h | h := riseByState_cases l s <;> simp [h]

theorem riseByState_port (l : EdgeLocals) (s : State) : (riseByState l s).port = s.port := by
  obtain h | h | h | h | h | h | h | h := riseByState_cases l s <;> simp [h]

theorem validate_cfg (s : State) : (validate s).cfg = s.cfg := by
  obtain ⟨a, x, h, -⟩ | ⟨h, -⟩ := validate_cases s <;> simp [h]

theorem validate_port (s : State) : (validate s).port = s.port := by
  obtain ⟨a, x, h, -⟩ | ⟨h, -⟩ := validate_cases s <;> simp [h]

theorem fallByState_cfg (l : EdgeLocals) (s : State) : (fallByState l s).cfg = s.cfg := by
  obtain h | h | h | h | h | h | h | h | h | h := fallByState_cases l s <;> simp [h, validate_cfg]

theorem fallByState_port (l : EdgeLocals) (s : State) : (fallByState l s).port = s.port := by
  obtain h | h | h | h | h | h | h | h | h | h := fallByState_cases l s <;> simp [h, validate_port]

end Sys2Proof.Machine
end

