-- ==== Sys2Proof/Laws/Fields.lean ====
section
/-! SUPPORT. The bytes of a frame and the bit RAW gains (spec/42_fields.md R100, R101). -/

namespace Sys2Proof.Machine

/-- R106 writes the complement as a subtraction. -/
theorem sub_eq_not (b : Byte) : 0xFF#8 - b = ~~~b := by revert b; decide

theorem byteA0_frame8Raw (a c : Byte) : byteA0 (frame8Raw a c) = a := by
  apply BitVec.eq_of_getLsbD_eq; intro i hi
  simp only [byteA0, frame8Raw, BitVec.getLsbD_extractLsb', BitVec.getLsbD_append, hi, Nat.zero_add]
  simp

theorem byteA1_frame8Raw (a c : Byte) : byteA1 (frame8Raw a c) = ~~~a := by
  apply BitVec.eq_of_getLsbD_eq; intro i hi
  simp only [byteA1, frame8Raw, BitVec.getLsbD_extractLsb', BitVec.getLsbD_append, hi]
  rw [if_neg (by omega), show 8 + i - 8 = i by omega]; simp [hi]

theorem byteC0_frame8Raw (a c : Byte) : byteC0 (frame8Raw a c) = c := by
  apply BitVec.eq_of_getLsbD_eq; intro i hi
  simp only [byteC0, frame8Raw, BitVec.getLsbD_extractLsb', BitVec.getLsbD_append, hi]
  rw [if_neg (by omega), if_neg (by omega), show 16 + i - 8 - 8 = i by omega]; simp [hi]

theorem byteC1_frame8Raw (a c : Byte) : byteC1 (frame8Raw a c) = ~~~c := by
  apply BitVec.eq_of_getLsbD_eq; intro i hi
  simp only [byteC1, frame8Raw, BitVec.getLsbD_extractLsb', BitVec.getLsbD_append, hi]
  rw [if_neg (by omega), if_neg (by omega), if_neg (by omega), show 24 + i - 8 - 8 - 8 = i by omega]; simp [hi]

/-- v[n] <- b, bit by bit. -/
theorem setBit_getLsbD (v : BitVec 32) (n j : Nat) (b : Bool) (hj : j < 32) :
    (setBit v n b).getLsbD j = if j = n then b else v.getLsbD j := by
  have e : (1#32 <<< n).getLsbD j = decide (j = n) := by
    simp only [BitVec.getLsbD_shiftLeft, BitVec.getLsbD_one, hj]
    by_cases h : j = n
    · simp [h]
    · by_cases h' : j < n
      · simp [h, h']
      · simp [h, show j - n ≠ 0 by omega]
  cases b
  · simp only [setBit, Bool.false_eq_true, if_false, BitVec.getLsbD_and, BitVec.getLsbD_not, hj, e]
    by_cases h : j = n <;> simp [h]
  · simp only [setBit, if_true, BitVec.getLsbD_or, e]
    by_cases h : j = n <;> simp [h]

/-- A bit written at place n keeps the word below 2^(n+1). -/
theorem setBit_lt (v : BitVec 32) (n : Nat) (b : Bool) (hv : v.toNat < 2 ^ n) :
    (setBit v n b).toNat < 2 ^ (n + 1) := by
  apply Nat.lt_pow_two_of_testBit
  intro j hj
  by_cases h32 : j < 32
  · rw [BitVec.testBit_toNat, setBit_getLsbD v n j b h32, if_neg (by omega)]
    exact Nat.testBit_lt_two_pow (lt_of_lt_of_le hv (Nat.pow_le_pow_right (by decide) (by omega)))
  · exact BitVec.getLsbD_of_ge _ _ (by omega)

end Sys2Proof.Machine
end

