-- ==== Sys2Proof/Laws/Records.lean ====
section
/-! SUPPORT. The fields of the records and register files the statements name, each read once. -/

namespace Sys2Proof.Machine

/-- The record of a timeout that ends a frame (R112). -/
def timeoutRecord (errEn : Bool) : Output :=
  if errEn then { Output.idle with errV := true, errCode := 5#3 } else Output.idle

@[simp] theorem State.answer_cfg (r : Regs) (o : Output) (s : State) : (s.answer r o).cfg = s.cfg := rfl
@[simp] theorem State.answer_regs (r : Regs) (o : Output) (s : State) : (s.answer r o).regs = r := rfl
@[simp] theorem State.answer_out (r : Regs) (o : Output) (s : State) : (s.answer r o).out = o := rfl
@[simp] theorem State.answer_port (r : Regs) (o : Output) (s : State) : (s.answer r o).port = s.port := rfl

@[simp] theorem Output.idle_decV : Output.idle.decV = false := rfl
@[simp] theorem Output.idle_decWord : Output.idle.decWord = 0#27 := rfl
@[simp] theorem Output.idle_errV : Output.idle.errV = false := rfl
@[simp] theorem Output.idle_errCode : Output.idle.errCode = 0#3 := rfl
@[simp] theorem Output.idle_tmrCmd : Output.idle.tmrCmd = 0#2 := rfl
@[simp] theorem Output.idle_tmrTag : Output.idle.tmrTag = 0#4 := rfl
@[simp] theorem Output.idle_bindFail : Output.idle.bindFail = false := rfl

@[simp] theorem restartRecord_decV (g : Tag) : (restartRecord g).decV = false := rfl
@[simp] theorem restartRecord_decWord (g : Tag) : (restartRecord g).decWord = 0#27 := rfl
@[simp] theorem restartRecord_errV (g : Tag) : (restartRecord g).errV = false := rfl
@[simp] theorem restartRecord_errCode (g : Tag) : (restartRecord g).errCode = 0#3 := rfl
@[simp] theorem restartRecord_tmrCmd (g : Tag) : (restartRecord g).tmrCmd = 1#2 := rfl
@[simp] theorem restartRecord_tmrTag (g : Tag) : (restartRecord g).tmrTag = g := rfl
@[simp] theorem restartRecord_bindFail (g : Tag) : (restartRecord g).bindFail = false := rfl

@[simp] theorem cancelRecord_decV (g : Tag) : (cancelRecord g).decV = false := rfl
@[simp] theorem cancelRecord_decWord (g : Tag) : (cancelRecord g).decWord = 0#27 := rfl
@[simp] theorem cancelRecord_errV (g : Tag) : (cancelRecord g).errV = false := rfl
@[simp] theorem cancelRecord_errCode (g : Tag) : (cancelRecord g).errCode = 0#3 := rfl
@[simp] theorem cancelRecord_tmrCmd (g : Tag) : (cancelRecord g).tmrCmd = 2#2 := rfl
@[simp] theorem cancelRecord_tmrTag (g : Tag) : (cancelRecord g).tmrTag = g := rfl
@[simp] theorem cancelRecord_bindFail (g : Tag) : (cancelRecord g).bindFail = false := rfl

@[simp] theorem decRecord_decV (w : BitVec 27) (g : Tag) : (decRecord w g).decV = true := rfl
@[simp] theorem decRecord_decWord (w : BitVec 27) (g : Tag) : (decRecord w g).decWord = w := rfl
@[simp] theorem decRecord_errV (w : BitVec 27) (g : Tag) : (decRecord w g).errV = false := rfl
@[simp] theorem decRecord_errCode (w : BitVec 27) (g : Tag) : (decRecord w g).errCode = 0#3 := rfl
@[simp] theorem decRecord_tmrCmd (w : BitVec 27) (g : Tag) : (decRecord w g).tmrCmd = 2#2 := rfl
@[simp] theorem decRecord_tmrTag (w : BitVec 27) (g : Tag) : (decRecord w g).tmrTag = g := rfl
@[simp] theorem decRecord_bindFail (w : BitVec 27) (g : Tag) : (decRecord w g).bindFail = false := rfl

@[simp] theorem errorRecord_decV (b : Bool) (c : BitVec 3) (g : Tag) : (errorRecord b c g).decV = false := by
  cases b <;> rfl
@[simp] theorem errorRecord_decWord (b : Bool) (c : BitVec 3) (g : Tag) : (errorRecord b c g).decWord = 0#27 := by
  cases b <;> rfl
@[simp] theorem errorRecord_errV (b : Bool) (c : BitVec 3) (g : Tag) : (errorRecord b c g).errV = b := by
  cases b <;> rfl
@[simp] theorem errorRecord_errCode (b : Bool) (c : BitVec 3) (g : Tag) : (errorRecord b c g).errCode = if b then c else 0#3 := by
  cases b <;> rfl
@[simp] theorem errorRecord_tmrCmd (b : Bool) (c : BitVec 3) (g : Tag) : (errorRecord b c g).tmrCmd = 2#2 := by
  cases b <;> rfl
@[simp] theorem errorRecord_tmrTag (b : Bool) (c : BitVec 3) (g : Tag) : (errorRecord b c g).tmrTag = g := by
  cases b <;> rfl
@[simp] theorem errorRecord_bindFail (b : Bool) (c : BitVec 3) (g : Tag) : (errorRecord b c g).bindFail = false := by
  cases b <;> rfl

@[simp] theorem timeoutRecord_decV (b : Bool) : (timeoutRecord b).decV = false := by
  cases b <;> rfl
@[simp] theorem timeoutRecord_decWord (b : Bool) : (timeoutRecord b).decWord = 0#27 := by
  cases b <;> rfl
@[simp] theorem timeoutRecord_errV (b : Bool) : (timeoutRecord b).errV = b := by
  cases b <;> rfl
@[simp] theorem timeoutRecord_errCode (b : Bool) : (timeoutRecord b).errCode = if b then 5#3 else 0#3 := by
  cases b <;> rfl
@[simp] theorem timeoutRecord_tmrCmd (b : Bool) : (timeoutRecord b).tmrCmd = 0#2 := by
  cases b <;> rfl
@[simp] theorem timeoutRecord_tmrTag (b : Bool) : (timeoutRecord b).tmrTag = 0#4 := by
  cases b <;> rfl
@[simp] theorem timeoutRecord_bindFail (b : Bool) : (timeoutRecord b).bindFail = false := by
  cases b <;> rfl

@[simp] theorem Regs.edged_en (d : Dir) (t : Timestamp) (r : Regs) : (r.edged d t).en = r.en := rfl
@[simp] theorem Regs.edged_ext (d : Dir) (t : Timestamp) (r : Regs) : (r.edged d t).ext = r.ext := rfl
@[simp] theorem Regs.edged_errEn (d : Dir) (t : Timestamp) (r : Regs) : (r.edged d t).errEn = r.errEn := rfl
@[simp] theorem Regs.edged_st (d : Dir) (t : Timestamp) (r : Regs) : (r.edged d t).st = r.st := rfl
@[simp] theorem Regs.edged_bitcnt (d : Dir) (t : Timestamp) (r : Regs) : (r.edged d t).bitcnt = r.bitcnt := rfl
@[simp] theorem Regs.edged_raw (d : Dir) (t : Timestamp) (r : Regs) : (r.edged d t).raw = r.raw := rfl
@[simp] theorem Regs.edged_tLast (d : Dir) (t : Timestamp) (r : Regs) : (r.edged d t).tLast = t := rfl
@[simp] theorem Regs.edged_haveLast (d : Dir) (t : Timestamp) (r : Regs) : (r.edged d t).haveLast = true := rfl
@[simp] theorem Regs.edged_lastDir (d : Dir) (t : Timestamp) (r : Regs) : (r.edged d t).lastDir = d := rfl
@[simp] theorem Regs.edged_tmoTag (d : Dir) (t : Timestamp) (r : Regs) : (r.edged d t).tmoTag = r.tmoTag := rfl
@[simp] theorem Regs.edged_histValid (d : Dir) (t : Timestamp) (r : Regs) : (r.edged d t).histValid = r.histValid := rfl
@[simp] theorem Regs.edged_lastCmd (d : Dir) (t : Timestamp) (r : Regs) : (r.edged d t).lastCmd = r.lastCmd := rfl
@[simp] theorem Regs.edged_lastAddr (d : Dir) (t : Timestamp) (r : Regs) : (r.edged d t).lastAddr = r.lastAddr := rfl
@[simp] theorem Regs.edged_lastXa (d : Dir) (t : Timestamp) (r : Regs) : (r.edged d t).lastXa = r.lastXa := rfl

@[simp] theorem Regs.dropped_en (r : Regs) : r.dropped.en = r.en := rfl
@[simp] theorem Regs.dropped_ext (r : Regs) : r.dropped.ext = r.ext := rfl
@[simp] theorem Regs.dropped_errEn (r : Regs) : r.dropped.errEn = r.errEn := rfl
@[simp] theorem Regs.dropped_st (r : Regs) : r.dropped.st = .idle := rfl
@[simp] theorem Regs.dropped_bitcnt (r : Regs) : r.dropped.bitcnt = 0#6 := rfl
@[simp] theorem Regs.dropped_raw (r : Regs) : r.dropped.raw = 0#32 := rfl
@[simp] theorem Regs.dropped_tLast (r : Regs) : r.dropped.tLast = r.tLast := rfl
@[simp] theorem Regs.dropped_haveLast (r : Regs) : r.dropped.haveLast = r.haveLast := rfl
@[simp] theorem Regs.dropped_lastDir (r : Regs) : r.dropped.lastDir = r.lastDir := rfl
@[simp] theorem Regs.dropped_tmoTag (r : Regs) : r.dropped.tmoTag = r.tmoTag := rfl
@[simp] theorem Regs.dropped_histValid (r : Regs) : r.dropped.histValid = r.histValid := rfl
@[simp] theorem Regs.dropped_lastCmd (r : Regs) : r.dropped.lastCmd = r.lastCmd := rfl
@[simp] theorem Regs.dropped_lastAddr (r : Regs) : r.dropped.lastAddr = r.lastAddr := rfl
@[simp] theorem Regs.dropped_lastXa (r : Regs) : r.dropped.lastXa = r.lastXa := rfl

/-! The fields of a result word (R61). -/

theorem packDec_cmd (c : Byte) (a : BitVec 16) (r v x : Bool) : (packDec c a r v x).extractLsb' 0 8 = c := by
  apply BitVec.eq_of_getLsbD_eq; intro i hi
  simp only [packDec, BitVec.getLsbD_extractLsb', BitVec.getLsbD_append, hi, Nat.zero_add]; simp

theorem packDec_addr (c : Byte) (a : BitVec 16) (r v x : Bool) : (packDec c a r v x).extractLsb' 8 16 = a := by
  apply BitVec.eq_of_getLsbD_eq; intro i hi
  simp only [packDec, BitVec.getLsbD_extractLsb', BitVec.getLsbD_append, hi]
  rw [if_neg (by omega), if_pos (by omega), show 8 + i - 8 = i by omega]; simp

theorem packDec_repeat (c : Byte) (a : BitVec 16) (r v x : Bool) : (packDec c a r v x).getLsbD 24 = r := by
  simp only [packDec, BitVec.getLsbD_append]; cases r <;> rfl

theorem packDec_valid (c : Byte) (a : BitVec 16) (r v x : Bool) : (packDec c a r v x).getLsbD 25 = v := by
  simp only [packDec, BitVec.getLsbD_append]; cases v <;> rfl

theorem packDec_xaddr (c : Byte) (a : BitVec 16) (r v x : Bool) : (packDec c a r v x).getLsbD 26 = x := by
  simp only [packDec, BitVec.getLsbD_append]; cases x <;> rfl

end Sys2Proof.Machine
end

