-- ==== Sys2Proof/Laws/Step.lean ====
section
/-! SUPPORT. The step over its three kinds of input, and exec over its gate, so that a proof about a run never unfolds them. -/

namespace Sys2Proof.Machine

theorem step_event (s : State) (w : EventWord) (rest : List Input) (h : s.port = .event w :: rest) :
    step s = exec (decode w) (s.setPort rest) := by
  simp [step, takeInput, h]

theorem step_rst (s : State) (rest : List Input) (h : s.port = .rst :: rest) :
    step s = .next (hardwareReset (s.setPort rest)) := by
  simp [step, takeInput, h]

theorem step_idle (s : State) (h : s.port = []) : step s = exec .nop s := by
  simp only [step, takeInput, h]; rw [← h]; rfl

/-- One input presented to s: an event runs at s itself. -/
theorem step_present_event (s : State) (w : EventWord) : step (s.present (.event w)) = exec (decode w) s := by
  rw [step_event _ w s.port rfl, State.setPort_present]

theorem step_present_rst (s : State) : step (s.present .rst) = .next (hardwareReset s) := by
  rw [step_rst _ s.port rfl, State.setPort_present]

/-- A rising edge on a bound block. -/
theorem execEdgeRise_bound (ts : Timestamp) (s : State) (h : s.regs.en = true) :
    execEdgeRise ts s = .next (riseByState (edgeLocals ts s) (recordEdge .rising ts s.quiet)) := by
  simp [execEdgeRise, whenBound, h]; rfl

/-- A falling edge on a bound block. -/
theorem execEdgeFall_bound (ts : Timestamp) (s : State) (h : s.regs.en = true) :
    execEdgeFall ts s = .next (fallByState (edgeLocals ts s) (recordEdge .falling ts s.quiet)) := by
  simp [execEdgeFall, whenBound, h]; rfl

/-- An unbound block ignores all but ENABLE: the meanings gated by EN. -/
theorem execEdgeRise_unbound (ts : Timestamp) (s : State) (h : s.regs.en = false) :
    execEdgeRise ts s = .next s.quiet := by
  simp [execEdgeRise, whenBound, h]

theorem execEdgeFall_unbound (ts : Timestamp) (s : State) (h : s.regs.en = false) :
    execEdgeFall ts s = .next s.quiet := by
  simp [execEdgeFall, whenBound, h]

theorem execTimeout_bound (g : Tag) (s : State) (h : s.regs.en = true) :
    execTimeout g s = .next (timeoutBound g s.quiet) := by
  rw [execTimeout, whenBound_bound _ s.quiet h]

theorem execTimeout_unbound (g : Tag) (s : State) (h : s.regs.en = false) : execTimeout g s = .next s.quiet := by
  rw [execTimeout, whenBound_unbound _ s.quiet h]

theorem execSetErr_bound (e : Bool) (s : State) (h : s.regs.en = true) :
    execSetErr e s = .next (s.quiet.setErrEn e) := by
  rw [execSetErr, whenBound_bound _ s.quiet h]

theorem execSetErr_unbound (e : Bool) (s : State) (h : s.regs.en = false) : execSetErr e s = .next s.quiet := by
  rw [execSetErr, whenBound_unbound _ s.quiet h]

theorem execClose_bound (s : State) (h : s.regs.en = true) : execClose s = .next (closeBound s.quiet) := by
  rw [execClose, whenBound_bound _ s.quiet h]

theorem execClose_unbound (s : State) (h : s.regs.en = false) : execClose s = .next s.quiet := by
  rw [execClose, whenBound_unbound _ s.quiet h]

theorem execEnable_bound (x : Bool) (s : State) (h : s.regs.en = true) :
    execEnable x s = .next (emitBindFail s.quiet) := by
  rw [execEnable, if_pos h]

theorem execEnable_unbound (x : Bool) (s : State) (h : s.regs.en = false) :
    execEnable x s = .next (bindDecoder x s.quiet) := by
  rw [execEnable, if_neg (by simp [h])]

end Sys2Proof.Machine
end

