-- ==== Sys2Proof/Laws/Effect.lean ====
section
/-! SUPPORT. Everything an event can do, said once: one row per outcome of spec/41_frame_fsm.md R97, spec/43_timeout.md R112 and
spec/44_control.md, with its guard, its registers and its record. A proof about every event takes its cases from
`exec_effect` and never unfolds a meaning; a proof about every step takes them from `step_cases`. -/

namespace Sys2Proof.Machine

/-! ## Errors of an edge -/

/-- The errors a rising edge raises, with their guards (R86, R90, R91, R92). -/
inductive RiseError (s : State) (ts : Timestamp) : ErrorCode → Prop
  | space (hst : s.regs.st = .als) (h1 : s.hits .ls ts = false) (h2 : s.hits .rs ts = false) : RiseError s ts .badLeaderSpace
  | twice (hst : s.regs.st = .rb) (hd : s.regs.lastDir = .rising) : RiseError s ts .badBitTiming
  | bit (hst : s.regs.st = .rb) (h1 : s.hits .b1 ts = false) (h2 : s.hits .b0 ts = false) : RiseError s ts .badBitTiming
  | stop (hst : s.regs.st = .asStop) : RiseError s ts .badBitTiming

/-- The errors a falling edge raises, with their guards (R87, R88, R89, R93, R102). -/
inductive FallError (s : State) (ts : Timestamp) : ErrorCode → Prop
  | leader (hst : s.regs.st = .als) : FallError s ts .badLeader
  | twice (hst : s.regs.st = .rb) (hd : s.regs.lastDir = .falling) : FallError s ts .badBitTiming
  | overrunBit (hst : s.regs.st = .rb) (hd : s.regs.lastDir = .rising) (h : s.hits .lp ts = true) : FallError s ts .overrun
  | bit (hst : s.regs.st = .rb) (hd : s.regs.lastDir = .rising) (h1 : s.hits .lp ts = false) (h2 : s.hits .bp ts = false) : FallError s ts .badBitTiming
  | overrunStop (hst : s.regs.st = .asStop) (h : s.hits .lp ts = true) : FallError s ts .overrun
  | stop (hst : s.regs.st = .asStop) (h1 : s.hits .lp ts = false) (h2 : s.hits .bp ts = false) : FallError s ts .badBitTiming
  | checksum (hst : s.regs.st = .asStop) (h1 : s.hits .lp ts = false) (h2 : s.hits .bp ts = true)
      (hc : byteC0 s.regs.raw ≠ ~~~(byteC1 s.regs.raw) ∨ s.regs.ext = false ∧ byteA0 s.regs.raw ≠ ~~~(byteA1 s.regs.raw)) :
      FallError s ts .checksumMismatch

/-- One row per outcome: from s, the event leaves these registers and drives this record. -/
inductive Effect (s : State) : Instr → Regs → Output → Prop
  | nop : Effect s .nop s.regs Output.idle
  | rsvd6 : Effect s .rsvd6 s.regs Output.idle
  | rsvd7 : Effect s .rsvd7 s.regs Output.idle
  | unbound (i : Instr) (hen : s.regs.en = false) (hi : ∀ x, i ≠ .enable x) : Effect s i s.regs Output.idle
  | bind (x : Bool) (hen : s.regs.en = false) : Effect s (.enable x) { Regs.reset with en := true, ext := x } Output.idle
  | bindFail (x : Bool) (hen : s.regs.en = true) : Effect s (.enable x) s.regs { Output.idle with bindFail := true }
  | setErr (e : Bool) (hen : s.regs.en = true) : Effect s (.setErr e) { s.regs with errEn := e } Output.idle
  | closeArmed (hen : s.regs.en = true) (hst : s.regs.st ≠ .idle) : Effect s .close Regs.reset (cancelRecord s.regs.tmoTag)
  | closeIdle (hen : s.regs.en = true) (hst : s.regs.st = .idle) : Effect s .close Regs.reset Output.idle
  | stale (g : Tag) (hen : s.regs.en = true) (h : s.regs.st = .idle ∨ g ≠ s.regs.tmoTag) :
      Effect s (.timeout g) s.regs Output.idle
  | expire (hen : s.regs.en = true) (hst : s.regs.st ≠ .idle) :
      Effect s (.timeout s.regs.tmoTag) s.regs.dropped (timeoutRecord s.regs.errEn)
  | idleRise (ts : Timestamp) (hen : s.regs.en = true) (hst : s.regs.st = .idle) :
      Effect s (.edgeRise ts) (s.regs.edged .rising (s.timeOf ts)) Output.idle
  | noise (ts : Timestamp) (hen : s.regs.en = true) (hst : s.regs.st = .idle)
      (h : s.regs.haveLast = false ∨ s.regs.lastDir = .falling ∨ s.hits .lp ts = false) :
      Effect s (.edgeFall ts) (s.regs.edged .falling (s.timeOf ts)) Output.idle
  | leader (ts : Timestamp) (hen : s.regs.en = true) (hst : s.regs.st = .idle) (hh : s.regs.haveLast = true)
      (hd : s.regs.lastDir = .rising) (h : s.hits .lp ts = true) :
      Effect s (.edgeFall ts)
        { s.regs.edged .falling (s.timeOf ts) with st := .als, bitcnt := 0#6, raw := 0#32, tmoTag := s.regs.tmoTag + 1#4 }
        (restartRecord (s.regs.tmoTag + 1#4))
  | start (ts : Timestamp) (hen : s.regs.en = true) (hst : s.regs.st = .als) (h : s.hits .ls ts = true) :
      Effect s (.edgeRise ts)
        { s.regs.edged .rising (s.timeOf ts) with st := .rb, bitcnt := 0#6, raw := 0#32, tmoTag := s.regs.tmoTag + 1#4 }
        (restartRecord (s.regs.tmoTag + 1#4))
  | again (ts : Timestamp) (hen : s.regs.en = true) (hst : s.regs.st = .als) (h1 : s.hits .ls ts = false)
      (h2 : s.hits .rs ts = true) :
      Effect s (.edgeRise ts) (s.regs.edged .rising (s.timeOf ts)).dropped
        (decRecord (packDec s.regs.lastCmd s.regs.lastAddr true s.regs.histValid s.regs.lastXa) s.regs.tmoTag)
  | pulse (ts : Timestamp) (hen : s.regs.en = true) (hst : s.regs.st = .rb) (hd : s.regs.lastDir = .rising)
      (h1 : s.hits .lp ts = false) (h2 : s.hits .bp ts = true) :
      Effect s (.edgeFall ts) { s.regs.edged .falling (s.timeOf ts) with tmoTag := s.regs.tmoTag + 1#4 }
        (restartRecord (s.regs.tmoTag + 1#4))
  | bit (ts : Timestamp) (b : Bool) (hen : s.regs.en = true) (hst : s.regs.st = .rb) (hd : s.regs.lastDir = .falling)
      (hb : b = true ∧ s.hits .b1 ts = true ∨ b = false ∧ s.hits .b1 ts = false ∧ s.hits .b0 ts = true) :
      Effect s (.edgeRise ts)
        { s.regs.edged .rising (s.timeOf ts) with
          st := if (s.regs.bitcnt + 1#6).toNat = frameBits then .asStop else .rb
          bitcnt := s.regs.bitcnt + 1#6
          raw := setBit s.regs.raw s.regs.bitcnt.toNat b
          tmoTag := s.regs.tmoTag + 1#4 }
        (restartRecord (s.regs.tmoTag + 1#4))
  | frame (ts : Timestamp) (a : BitVec 16) (x : Bool) (hen : s.regs.en = true) (hst : s.regs.st = .asStop)
      (h1 : s.hits .lp ts = false) (h2 : s.hits .bp ts = true) (hc : byteC0 s.regs.raw = ~~~(byteC1 s.regs.raw))
      (ha : (byteA0 s.regs.raw = ~~~(byteA1 s.regs.raw) ∧ a = (byteA0 s.regs.raw).setWidth 16 ∧ x = false) ∨
        (byteA0 s.regs.raw ≠ ~~~(byteA1 s.regs.raw) ∧ s.regs.ext = true ∧
          a = byteA1 s.regs.raw ++ byteA0 s.regs.raw ∧ x = true)) :
      Effect s (.edgeFall ts)
        { (s.regs.edged .falling (s.timeOf ts)).dropped with
          histValid := true, lastCmd := byteC0 s.regs.raw, lastAddr := a, lastXa := x }
        (decRecord (packDec (byteC0 s.regs.raw) a false true x) s.regs.tmoTag)
  | riseError (ts : Timestamp) (e : ErrorCode) (hen : s.regs.en = true) (he : RiseError s ts e) :
      Effect s (.edgeRise ts) (s.regs.edged .rising (s.timeOf ts)).dropped (errorRecord s.regs.errEn e.code s.regs.tmoTag)
  | fallError (ts : Timestamp) (e : ErrorCode) (hen : s.regs.en = true) (he : FallError s ts e) :
      Effect s (.edgeFall ts) (s.regs.edged .falling (s.timeOf ts)).dropped (errorRecord s.regs.errEn e.code s.regs.tmoTag)

/-- The error exit, from a state with an idle record (R133, R134). -/
theorem raiseError_answer (e : ErrorCode) (s : State) (h : s.out = Output.idle) :
    raiseError e s = s.answer s.regs.dropped (errorRecord s.regs.errEn e.code s.regs.tmoTag) := by
  cases hr : s.regs.errEn <;>
    exact State.eq_of_fields (by simp [State.answer]) (by simp [State.answer, Regs.dropped])
      (by simp [State.answer, errorRecord, cancelRecord, h, hr]) (by simp [State.answer])

theorem rise_effect (ts : Timestamp) (s : State) (hen : s.regs.en = true) :
    ∃ r o, Effect s (.edgeRise ts) r o ∧
      riseByState (edgeLocals ts s) (recordEdge .rising ts s.quiet) = s.answer r o := by
  obtain ⟨h, e⟩ | ⟨h, h1, e⟩ | ⟨h, h1, h2, e⟩ | ⟨h, h1, h2, e⟩ | ⟨h, hd, h1, e⟩ | ⟨h, hd, h1, h2, e⟩ | ⟨h, h1, e⟩ | ⟨h, e⟩ :=
    riseByState_cases (edgeLocals ts s) (recordEdge .rising ts s.quiet) <;> rw [e]
  · exact ⟨_, _, .idleRise ts hen h, rfl⟩
  · exact ⟨_, _, .start ts hen h h1, rfl⟩
  · exact ⟨_, _, .again ts hen h h1 h2, rfl⟩
  · exact ⟨_, _, .riseError ts _ hen (.space h h1 h2), raiseError_answer _ _ rfl⟩
  · exact ⟨_, _, .bit ts true hen h hd (.inl ⟨rfl, h1⟩),
      State.eq_of_fields (by simp [State.answer]) (by simp [State.answer, show s.regs.st = .rb from h, Regs.edged, State.timeOf]) (by simp [State.answer, restartRecord])
        (by simp [State.answer])⟩
  · exact ⟨_, _, .bit ts false hen h hd (.inr ⟨rfl, h1, h2⟩),
      State.eq_of_fields (by simp [State.answer]) (by simp [State.answer, show s.regs.st = .rb from h, Regs.edged, State.timeOf]) (by simp [State.answer, restartRecord])
        (by simp [State.answer])⟩
  · obtain hd | ⟨h1, h2⟩ := h1
    · exact ⟨_, _, .riseError ts _ hen (.twice h hd), raiseError_answer _ _ rfl⟩
    · exact ⟨_, _, .riseError ts _ hen (.bit h h1 h2), raiseError_answer _ _ rfl⟩
  · exact ⟨_, _, .riseError ts _ hen (.stop h), raiseError_answer _ _ rfl⟩

theorem fall_effect (ts : Timestamp) (s : State) (hen : s.regs.en = true) :
    ∃ r o, Effect s (.edgeFall ts) r o ∧
      fallByState (edgeLocals ts s) (recordEdge .falling ts s.quiet) = s.answer r o := by
  obtain ⟨h, hh, hd, h1, e⟩ | ⟨h, h1, e⟩ | ⟨h, e⟩ | ⟨h, hd, e⟩ | ⟨h, hd, h1, e⟩ | ⟨h, hd, h1, h2, e⟩ | ⟨h, hd, h1, h2, e⟩ |
      ⟨h, h1, e⟩ | ⟨h, h1, h2, e⟩ | ⟨h, h1, h2, e⟩ :=
    fallByState_cases (edgeLocals ts s) (recordEdge .falling ts s.quiet) <;> rw [e]
  · exact ⟨_, _, .leader ts hen h hh hd h1, rfl⟩
  · exact ⟨_, _, .noise ts hen h h1, rfl⟩
  · exact ⟨_, _, .fallError ts _ hen (.leader h), raiseError_answer _ _ rfl⟩
  · exact ⟨_, _, .fallError ts _ hen (.twice h hd), raiseError_answer _ _ rfl⟩
  · exact ⟨_, _, .fallError ts _ hen (.overrunBit h hd h1), raiseError_answer _ _ rfl⟩
  · exact ⟨_, _, .pulse ts hen h hd h1 h2, rfl⟩
  · exact ⟨_, _, .fallError ts _ hen (.bit h hd h1 h2), raiseError_answer _ _ rfl⟩
  · exact ⟨_, _, .fallError ts _ hen (.overrunStop h h1), raiseError_answer _ _ rfl⟩
  · exact ⟨_, _, .fallError ts _ hen (.stop h h1 h2), raiseError_answer _ _ rfl⟩
  · obtain ⟨a, x, e, hc, ha⟩ | ⟨e, hc⟩ := validate_cases (recordEdge .falling ts s.quiet) <;> rw [e]
    · exact ⟨_, _, .frame ts a x hen h h1 h2 hc ha, rfl⟩
    · exact ⟨_, _, .fallError ts _ hen (.checksum h h1 h2 hc), raiseError_answer _ _ rfl⟩

/-- Everything an event can do. -/
theorem exec_effect (i : Instr) (s : State) : ∃ r o, Effect s i r o ∧ exec i s = .next (s.answer r o) := by
  cases he : s.regs.en
  · by_cases hi : ∀ x, i ≠ .enable x
    · refine ⟨_, _, .unbound i he hi, ?_⟩
      cases i <;> first | rfl | exact absurd rfl (hi _) | skip
      · exact execEdgeRise_unbound _ _ he
      · exact execEdgeFall_unbound _ _ he
      · exact execTimeout_unbound _ _ he
      · exact execSetErr_unbound _ _ he
      · exact execClose_unbound _ he
    · push Not at hi
      obtain ⟨x, rfl⟩ := hi
      exact ⟨_, _, .bind x he, execEnable_unbound x s he⟩
  · cases i with
    | nop => exact ⟨_, _, .nop, rfl⟩
    | rsvd6 => exact ⟨_, _, .rsvd6, rfl⟩
    | rsvd7 => exact ⟨_, _, .rsvd7, rfl⟩
    | enable x => exact ⟨_, _, .bindFail x he, execEnable_bound x s he⟩
    | setErr e => exact ⟨_, _, .setErr e he, execSetErr_bound e s he⟩
    | close =>
      by_cases h : s.regs.st = .idle
      · exact ⟨_, _, .closeIdle he h, by rw [exec, execClose_bound _ he, closeBound, if_neg (by simp [h])]; rfl⟩
      · exact ⟨_, _, .closeArmed he h, by rw [exec, execClose_bound _ he, closeBound, if_pos (by simp [h])]; rfl⟩
    | timeout g =>
      by_cases h : s.regs.st = .idle ∨ g ≠ s.regs.tmoTag
      · exact ⟨_, _, .stale g he h, by rw [exec, execTimeout_bound _ _ he, timeoutBound_stale g s.quiet h]; rfl⟩
      · push Not at h
        obtain ⟨h, rfl⟩ := h
        refine ⟨_, _, .expire he h, ?_⟩
        rw [exec, execTimeout_bound _ _ he]
        have := timeoutBound_current s.quiet h
        rw [State.quiet_regs] at this
        rw [this]
        cases hr : s.regs.errEn <;>
          exact congrArg _ (State.eq_of_fields (by simp [State.answer]) (by simp [State.answer, Regs.dropped])
            (by simp [State.answer, timeoutRecord, hr, ErrorCode.code]) (by simp [State.answer]))
    | edgeRise ts =>
      obtain ⟨r, o, h, e⟩ := rise_effect ts s he
      exact ⟨r, o, h, by rw [exec, execEdgeRise_bound ts s he, e]⟩
    | edgeFall ts =>
      obtain ⟨r, o, h, e⟩ := fall_effect ts s he
      exact ⟨r, o, h, by rw [exec, execEdgeFall_bound ts s he, e]⟩

/-- The inversion of exec: a next state is one of the rows of `Effect`. -/
theorem exec_cases {i : Instr} {s t : State} (h : exec i s = .next t) : ∃ r o, Effect s i r o ∧ t = s.answer r o := by
  obtain ⟨r, o, he, h'⟩ := exec_effect i s
  rw [h'] at h; cases h; exact ⟨r, o, he, rfl⟩

/-- The inversion of step: an event, RST, or an idle bus. -/
theorem step_cases {s t : State} (h : step s = .next t) :
    (∃ w rest, s.port = .event w :: rest ∧ exec (decode w) (s.setPort rest) = .next t) ∨
    (∃ rest, s.port = .rst :: rest ∧ t = hardwareReset (s.setPort rest)) ∨
    (s.port = [] ∧ t = s.quiet) := by
  cases hp : s.port with
  | nil => rw [step_idle _ hp] at h; cases h; exact .inr (.inr ⟨rfl, rfl⟩)
  | cons x rest =>
    cases x with
    | event w => rw [step_event _ _ _ hp] at h; exact .inl ⟨w, rest, rfl, h⟩
    | rst => rw [step_rst _ _ hp] at h; cases h; exact .inr (.inl ⟨rest, rfl, rfl⟩)

end Sys2Proof.Machine
end

