-- ==== Sys2Proof/Laws/EdgeTimer.lean ====
section
/-! SUPPORT. What the Edge Timer holds after it heard a record (spec/60_exceptions.md R137, R138), and runs taken apart. -/

namespace Sys2Proof.Machine

@[simp] theorem EdgeTimer.drop_pending (t : EdgeTimer) : t.drop.pending = none := by
  unfold EdgeTimer.drop; split <;> simp_all

/-- A RESTART schedules its tag, a CANCEL takes its own tag away, and nothing else changes what is scheduled. -/
theorem EdgeTimer.hear_pending (o : Output) (t : EdgeTimer) :
    (t.hear o).pending.map Prod.fst =
      if o.tmrCmd = 1#2 then some o.tmrTag
      else if o.tmrCmd = 2#2 ∧ t.pending.map Prod.fst = some o.tmrTag then none
      else t.pending.map Prod.fst := by
  unfold EdgeTimer.hear
  by_cases h1 : o.tmrCmd = TmrCmd.restart.code
  · rw [if_pos h1, if_pos (show o.tmrCmd = 1#2 from h1)]; rfl
  rw [if_neg h1, if_neg (show ¬ o.tmrCmd = 1#2 from h1)]
  by_cases h2 : o.tmrCmd = TmrCmd.cancel.code
  · rw [if_pos h2]
    by_cases h3 : t.pending.map Prod.fst = some o.tmrTag
    · rw [if_pos h3, if_pos ⟨show o.tmrCmd = 2#2 from h2, h3⟩, EdgeTimer.drop_pending]; rfl
    · rw [if_neg h3, if_neg (fun h => h3 h.2)]
  · rw [if_neg h2, if_neg (fun h => h2 h.1)]

/-- What is dropped is what was scheduled. -/
theorem EdgeTimer.mem_drop_dead (t : EdgeTimer) (d : Tag × Nat) : d ∈ t.drop.dead ↔ t.pending = some d ∨ d ∈ t.dead := by
  unfold EdgeTimer.drop
  split <;> simp_all [eq_comm]

/-- A RESTART forbids the late delivery of its tag (R157). -/
theorem EdgeTimer.hear_restart_dead (o : Output) (t : EdgeTimer) (h : o.tmrCmd = 1#2) :
    ∀ d ∈ (t.hear o).dead, d.1 ≠ o.tmrTag := by
  unfold EdgeTimer.hear
  rw [if_pos (show o.tmrCmd = TmrCmd.restart.code from h)]
  simp

/-- Without a request the Edge Timer keeps what it holds. -/
theorem EdgeTimer.hear_none (o : Output) (t : EdgeTimer) (h : o.tmrCmd = 0#2) : t.hear o = t := by
  have h1 : ¬ o.tmrCmd = TmrCmd.restart.code := by rw [h]; decide
  have h2 : ¬ o.tmrCmd = TmrCmd.cancel.code := by rw [h]; decide
  rw [EdgeTimer.hear, if_neg h1, if_neg h2]

/-- An event leaves the inputs still to come. -/
theorem exec_port {i : Instr} {s t : State} (h : exec i s = .next t) : t.port = s.port := by
  obtain ⟨r, o, -, rfl⟩ := exec_cases h; rfl

/-- A run of k + m steps is a run of k and then one of m. -/
theorem runSteps_add (k m : Nat) : ∀ s t : State, runSteps k s = .next t → runSteps (k + m) s = runSteps m t := by
  induction k with
  | zero => intro s t h; cases h; rw [Nat.zero_add]
  | succ k ih =>
    intro s t h
    rw [Nat.succ_add]
    simp only [runSteps] at h ⊢
    cases hs : step s with
    | next u => rw [hs] at h; exact ih u t h
    | fault f => rw [hs] at h; cases h
    | refused r => rw [hs] at h; cases h

end Sys2Proof.Machine
end

