-- ==== Sys2Proof/Laws/PerInstr.lean ====
section
/-! SUPPORT. Statements made of every event, one lemma per constructor. -/

namespace Sys2Proof.Laws.OpcodeRow

/-- The mask of an event's row in spec/opcode_table.json. -/
def mask : Instr → EventWord
  | .nop => 0x0000000007#40
  | .edgeRise _ => 0x000000000F#40
  | .edgeFall _ => 0x000000000F#40
  | .timeout _ => 0x0000000007#40
  | .enable _ => 0x0000000007#40
  | .setErr _ => 0x0000000007#40
  | .close => 0x0000000007#40
  | .rsvd6 => 0x0000000007#40
  | .rsvd7 => 0x0000000007#40

/-- The match of an event's row in spec/opcode_table.json. -/
def value : Instr → EventWord
  | .nop => 0x0000000000#40
  | .edgeRise _ => 0x0000000001#40
  | .edgeFall _ => 0x0000000009#40
  | .timeout _ => 0x0000000002#40
  | .enable _ => 0x0000000003#40
  | .setErr _ => 0x0000000004#40
  | .close => 0x0000000005#40
  | .rsvd6 => 0x0000000006#40
  | .rsvd7 => 0x0000000007#40

/-- The encoded word lies in its event's row of the opcode table (R51). -/
abbrev Statement (i : Instr) : Prop := encode i &&& mask i = value i

/-- The low byte of a packed word, whatever its timestamp. -/
theorem packEvent_and_low (ts : Timestamp) (arg : BitVec 4) (dir : BitVec 1) (op : BitVec 3) (m : EventWord)
    (hm : m.toNat < 2 ^ 8) :
    packEvent ts arg dir op &&& m = packEvent 0#32 arg dir op &&& m := by
  apply BitVec.eq_of_getLsbD_eq
  intro i hi
  simp only [BitVec.getLsbD_and]
  by_cases h : i < 8
  · congr 1
    simp only [packEvent, BitVec.getLsbD_append]
    repeat' split
    all_goals first | rfl | omega
  · have : m.getLsbD i = false :=
      Nat.testBit_lt_two_pow (lt_of_lt_of_le hm (Nat.pow_le_pow_right (by decide) (by omega)))
    simp [this]

theorem nop : Statement .nop := by decide
theorem edgeRise (ts : Timestamp) : Statement (.edgeRise ts) := by
  simp only [Statement, encode, mask, value]
  rw [packEvent_and_low _ _ _ _ _ (by decide)]; decide
theorem edgeFall (ts : Timestamp) : Statement (.edgeFall ts) := by
  simp only [Statement, encode, mask, value]
  rw [packEvent_and_low _ _ _ _ _ (by decide)]; decide
theorem timeout (g : Tag) : Statement (.timeout g) := by
  revert g; decide
theorem enable (x : Bool) : Statement (.enable x) := by cases x <;> decide
theorem setErr (e : Bool) : Statement (.setErr e) := by cases e <;> decide
theorem close : Statement .close := by decide
theorem rsvd6 : Statement .rsvd6 := by decide
theorem rsvd7 : Statement .rsvd7 := by decide

end Sys2Proof.Laws.OpcodeRow
end

