-- ==== Sys2Proof/Tests/Slice0.lean ====
section
/-! SUPPORT. Tests: words written out from spec/30_encoding.md, vectors of spec/95_test_vectors.md (named by their numbers V, T, K
and W), one refused term for each check of WellFormed, and a witness for the hypotheses of every statement. -/

namespace Sys2Proof.Tests

open Sys2Proof Sys2Proof.Machine

/-! ## Helpers -/

/-- A bound block in a given frame state, whose last edge came at time 0. -/
def atState (st : FrameState) (dir : Dir) (bitcnt : BitVec 6) (raw : BitVec 32) (tag : Tag) : State :=
  { State.reset with regs := { Regs.reset with en := true, errEn := true, st := st, haveLast := true, lastDir := dir,
                                               bitcnt := bitcnt, raw := raw, tmoTag := tag } }

/-- IDLE after a rising edge at time 0. -/
def sIdle : State := atState .idle .rising 0#6 0#32 0#4
/-- ALS, tag 1. -/
def sAls : State := atState .als .falling 0#6 0#32 1#4
/-- RB before a bit pulse, tag 15. -/
def sPulse : State := atState .rb .rising 0#6 0#32 15#4
/-- RB before a bit space. -/
def sSpace : State := atState .rb .falling 0#6 0#32 3#4
/-- RB before the last bit space. -/
def sLast : State := atState .rb .falling 31#6 0x6916FF00#32 1#4
/-- AS with the frame of W1. -/
def sStop : State := atState .asStop .rising 32#6 0xE916FF00#32 2#4
/-- AS with a flipped bit in the inverted command byte. -/
def sBad : State := atState .asStop .rising 32#6 0x6916FF00#32 2#4
/-- s with the extended variant. -/
def extended (s : State) : State := { s with regs := { s.regs with ext := true } }
/-- s without a handler. -/
def unheard (s : State) : State := { s with regs := { s.regs with errEn := false } }

/-- What a meaning answers, read as (ST, record). -/
def stOut : StepOutcome → Option (FrameState × Output)
  | .next t => some (t.regs.st, t.out)
  | .fault _ => none
  | .refused _ => none

/-- What a meaning answers, read as registers. -/
def regsOf : StepOutcome → Option Regs
  | .next t => some t.regs
  | .fault _ => none
  | .refused _ => none

/-- The invariant of a state, from its three parts. -/
theorem inv_of {s : State} (h1 : s.cfg.Legal) (h2 : s.regs.Inv) (h3 : s.regs.tLast.toNat < 2 ^ s.cfg.tsWidth) : s.Inv :=
  ⟨h1, h2, h3⟩
theorem inv_sIdle : sIdle.Inv := inv_of (by decide) (by decide) (by decide)
theorem inv_sAls : sAls.Inv := inv_of (by decide) (by decide) (by decide)
theorem inv_sSpace : sSpace.Inv := inv_of (by decide) (by decide) (by decide)
theorem inv_sLast : sLast.Inv := inv_of (by decide) (by decide) (by decide)
theorem inv_sStop : sStop.Inv := inv_of (by decide) (by decide) (by decide)

/-! ## Decoding: words written bit by bit, TS ARG DIR OP (R50 to R53) -/

theorem test_decode_nop : decode 0b1111111111111111111111111111111111111000#40 = .nop := by decide
theorem test_decode_edgeRise : decode 0b0000000000000000000000000110010000000001#40 = .edgeRise 100#32 := by decide
theorem test_decode_edgeFall : decode 0b0000000000000000001000110010100000001001#40 = .edgeFall 9000#32 := by decide
theorem test_decode_timeout : decode 0b0000000000000000000000000000000001010010#40 = .timeout 5#4 := by decide
theorem test_decode_enable : decode 0b0000000000000000000000000000000000010011#40 = .enable true := by decide
theorem test_decode_enable_argHigh : decode 0b0000000000000000000000000000000011100011#40 = .enable false := by decide
theorem test_decode_setErr : decode 0b0000000000000000000000000000000000010100#40 = .setErr true := by decide
theorem test_decode_close : decode 0b0000000000000000000000000000000000000101#40 = .close := by decide
theorem test_decode_rsvd6 : decode 0b1111111111111111111111111111111111111110#40 = .rsvd6 := by decide
theorem test_decode_rsvd7 : decode 0b0000000000000000000000000000000000000111#40 = .rsvd7 := by decide
theorem test_encode_edgeFall : encode (.edgeFall 9000#32) = 0x0000232809#40 := by decide
theorem test_decodeTableWord : decodeTableWord 40 0x0000000052 = some (.timeout 5#4) ∧ decodeTableWord 48 0 = none := by decide
theorem test_withFetchWord : regsOf (step (State.reset.withFetchWord 40 0x13)) =
    some { Regs.reset with en := true, ext := true } := by decide

/-! ## One step per event -/

/-- V2. -/
theorem test_edgeFall_leader : stOut (exec (.edgeFall 9000#32) sIdle) =
    some (.als, { Output.idle with tmrCmd := 1#2, tmrTag := 1#4 }) := by decide
/-- V28. -/
theorem test_edgeFall_valid : stOut (exec (.edgeFall 563#32) sStop) =
    some (.idle, { Output.idle with decV := true, decWord := 0x2000016#27, tmrCmd := 2#2, tmrTag := 2#4 }) := by decide
/-- V12. -/
theorem test_edgeRise_repeat : stOut (exec (.edgeRise 2250#32) sAls) =
    some (.idle, { Output.idle with decV := true, decWord := 0x1000000#27, tmrCmd := 2#2, tmrTag := 1#4 }) := by decide
/-- V32. -/
theorem test_edgeRise_lastBit : regsOf (exec (.edgeRise 1687#32) sLast) =
    some { sLast.regs with st := .asStop, bitcnt := 32#6, raw := 0xE916FF00#32, tLast := 1687#32, lastDir := .rising,
                           tmoTag := 2#4 } := by decide
/-- T7. -/
theorem test_edgeFall_tagWraps : stOut (exec (.edgeFall 563#32) sPulse) =
    some (.rb, { Output.idle with tmrCmd := 1#2, tmrTag := 0#4 }) := by decide
/-- T1. -/
theorem test_timeout_current : stOut (exec (.timeout 15#4) sPulse) =
    some (.idle, { Output.idle with errV := true, errCode := 5#3 }) := by decide
/-- T2. -/
theorem test_timeout_stale : regsOf (exec (.timeout 14#4) sPulse) = some sPulse.regs := by decide
/-- K2. -/
theorem test_enable_extended : regsOf (exec (.enable true) State.reset) =
    some { Regs.reset with en := true, ext := true } := by decide
/-- K3. -/
theorem test_enable_bindFail : stOut (exec (.enable false) sPulse) = some (.rb, { Output.idle with bindFail := true }) := by decide
/-- K14. -/
theorem test_setErr_midFrame : regsOf (exec (.setErr false) sPulse) = some { sPulse.regs with errEn := false } := by decide
/-- K6. -/
theorem test_setErr_unbound : regsOf (exec (.setErr true) State.reset) = some Regs.reset := by decide
/-- K7. -/
theorem test_close_armed : stOut (exec .close sSpace) = some (.idle, { Output.idle with tmrCmd := 2#2, tmrTag := 3#4 }) := by decide
/-- K8. -/
theorem test_close_idle : stOut (exec .close sIdle) = some (.idle, Output.idle) := by decide
/-- K10. -/
theorem test_nop : regsOf (exec .nop sSpace) = some sSpace.regs := by decide
/-- K11. -/
theorem test_rsvd6 : regsOf (exec .rsvd6 sSpace) = some sSpace.regs := by decide
/-- K12. -/
theorem test_rsvd7 : regsOf (exec .rsvd7 sSpace) = some sSpace.regs := by decide

/-! ## Intervals, windows, extractor (2.1, 2.2, 2.4 of the vectors) -/

theorem test_sdiff : sdiffW 32 0x3E7#32 0x3E8#32 = -1 ∧ sdiffW 32 0x80000000#32 0#32 = -2147483648 ∧
    sdiffW 16 0x10#32 0xFFF0#32 = 32 ∧ sdiffW 16 0x8000#32 0#32 = -32768 ∧ sdiffW 15 0x100#32 0x7F00#32 = 512 := by decide
theorem test_classify : classify Windows.default 1688 = ⟨false, false, true, false, false, true⟩ ∧
    classify Windows.default 2110 = ⟨false, false, true, false, false, false⟩ ∧
    classify Windows.default 422 = ⟨false, false, false, true, true, false⟩ ∧
    classify Windows.default 704 = ⟨false, false, false, false, false, false⟩ := by decide
theorem test_extract : extract 0xF708FB04#32 false = .ok 0x08#8 0x0004#16 false ∧
    extract 0xE916FE00#32 true = .ok 0x16#8 0xFE00#16 true ∧ extract 0xE916FE00#32 false = .fail ∧
    extract 0xFF000000#32 true = .ok 0#8 0#16 true ∧ extract 0x6916FE00#32 true = .fail := by decide

/-! ## Trace syntax -/

theorem test_text_edgeFall : assembleText "EDGE.FALL 9000".toList = some [0x0000232809#40] := by decide
theorem test_text_comment : assembleText "SETERR.ON ; handler".toList = some [0x14#40] ∧
    assembleText "TIMEOUT 16".toList = none ∧ assembleText "RSVD6".toList = none := by decide
theorem test_hexWord : hexWord 0x0000232809#40 = "0x0000232809".toList := by decide

/-! ## WellFormed: each check refuses -/

/-- The default parameters with other windows. -/
def withWindows (f : Windows → Windows) : Params := { Params.default with windows := f Windows.default }

theorem smoke_default : Params.default.Legal := by decide
theorem smoke_tsWidth_low : ¬ ({ Params.default with tsWidth := 14 } : Params).Legal := by decide
theorem smoke_tsWidth_high : ¬ ({ Params.default with tsWidth := 33 } : Params).Legal := by decide
theorem smoke_lo_zero : ¬ (withWindows fun w => { w with bp := ⟨0, 703⟩ }).WindowsInRange := by decide
theorem smoke_lo_above_hi : ¬ (withWindows fun w => { w with rs := ⟨2813, 2812⟩ }).WindowsInRange := by decide
theorem smoke_hi_at_half : ¬ ({ Params.default with tsWidth := 15, windows := { Windows.default with lp := ⟨6750, 16384⟩ } } : Params).WindowsInRange := by
  decide
theorem smoke_lp_bp : ¬ (withWindows fun w => { w with bp := ⟨422, 6750⟩ }).PairsDisjoint := by decide
theorem smoke_ls_rs : ¬ (withWindows fun w => { w with rs := ⟨1688, 3375⟩ }).PairsDisjoint := by decide
theorem smoke_b0_b1 : ¬ (withWindows fun w => { w with b0 := ⟨422, 1266⟩ }).PairsDisjoint := by decide
theorem smoke_timeout_zero : ¬ ({ Params.default with timeoutMs := 0 } : Params).TimeoutLongest := by decide
theorem smoke_timeout_short : ¬ ({ Params.default with timeoutMs := 11 } : Params).TimeoutLongest := by decide
theorem smoke_writable : Instr.rsvd6.Writable = false ∧ Instr.rsvd7.Writable = false ∧ Instr.nop.Writable = true := by decide
theorem smoke_line_edge : (TraceLine.edgeRise (2 ^ 32)).wellFormed = false ∧ (TraceLine.edgeFall (2 ^ 32)).wellFormed = false := by
  decide
theorem smoke_line_small : (TraceLine.timeout 16).wellFormed = false ∧ (TraceLine.enable 2).wellFormed = false ∧
    (TraceLine.setErr 2).wellFormed = false := by decide
theorem smoke_line_pseudo : (TraceLine.mark (2 ^ 32) 0).wellFormed = false ∧ (TraceLine.necFrame (2 ^ 32) 0).wellFormed = false ∧
    (TraceLine.necFrame 0 (2 ^ 32)).wellFormed = false ∧ (TraceLine.necFrame8 (2 ^ 32) 0 0).wellFormed = false ∧
    (TraceLine.necFrame16 (2 ^ 32) 0 0).wellFormed = false ∧ (TraceLine.necRepeat (2 ^ 32)).wellFormed = false := by decide
theorem smoke_line_reserved : TraceLine.rsvd6.wellFormed = false ∧ TraceLine.rsvd7.wellFormed = false := by decide

/-! ## Witnesses: encoding and the step -/

theorem witness_OpcodeMapSelectsTheEvent :
    0xFFFFFFFFF8#40 &&& 0x7#40 = 0x0#40 ∧ 0xFFFFFFFFF1#40 &&& 0xF#40 = 0x1#40 ∧ 0xFFFFFFFFF9#40 &&& 0xF#40 = 0x9#40 ∧
    0xFFFFFFFFFA#40 &&& 0x7#40 = 0x2#40 ∧ 0xFFFFFFFFFB#40 &&& 0x7#40 = 0x3#40 ∧ 0xFFFFFFFFFC#40 &&& 0x7#40 = 0x4#40 ∧
    0xFFFFFFFFFD#40 &&& 0x7#40 = 0x5#40 ∧ 0xFFFFFFFFFE#40 &&& 0x7#40 = 0x6#40 ∧ 0xFFFFFFFFFF#40 &&& 0x7#40 = 0x7#40 := by decide

/-- A block with TS_WIDTH 15, the smallest. -/
def narrow : Params := { Params.default with tsWidth := 15 }

theorem witness_IgnoredBitsNeverMatter :
    (evOp 0x8000000001#40 = evOp 0x00000000F1#40 ∧ evDir 0x8000000001#40 = evDir 0x00000000F1#40 ∧
      (evTs 0x8000000001#40).toNat % 2 ^ (State.resetWith narrow).cfg.tsWidth =
        (evTs 0x00000000F1#40).toNat % 2 ^ (State.resetWith narrow).cfg.tsWidth) ∧
    (evOp 0xFFFFFFFFFA#40 = evOp 0x00000000F2#40 ∧ evArg 0xFFFFFFFFFA#40 = evArg 0x00000000F2#40) ∧
    (evOp 0xFFFFFFFFFB#40 = evOp 0x0000000013#40 ∧ evArg0 0xFFFFFFFFFB#40 = evArg0 0x0000000013#40) ∧
    (evOp 0xFFFFFFFFFC#40 = evOp 0x0000000014#40 ∧ evArg0 0xFFFFFFFFFC#40 = evArg0 0x0000000014#40) ∧
    (evOp 0xFFFFFFFFF8#40 = evOp 0x0000000000#40) ∧
    (assemble (.timeout 15) = some [0x00000000F2#40] ∧ 0x00000000F2#40 ∈ [0x00000000F2#40]) := by decide

theorem witness_StepRunsTheDecodedEvent :
    (sIdle.present (.event 0x5#40)).port = .event 0x5#40 :: [] ∧ (sIdle.present .rst).port = .rst :: [] ∧ sIdle.port = [] := by
  decide

/-! ## Witnesses: control events -/

theorem witness_NopLeavesEverythingAlone : evOp 0xFFFFFFFFF8#40 = 0#3 := by decide
theorem witness_ReservedOpcodesDoNothing : evOp 0xFFFFFFFFFE#40 = 6#3 ∧ evOp 0x0000000007#40 = 7#3 := by decide

theorem witness_EnableBindsOrIsRefused_states :
    State.reset.regs.en = false ∧ sSpace.regs.en = true ∧ evOp 0xFFFFFFFFFB#40 = 3#3 := by decide
theorem witness_EnableBindsOrIsRefused_sets :
    ∃ t, exec (.enable true) State.reset = .next t ∧ State.reset.regs.ext = false ∧ t.regs.ext = true := ⟨_, rfl, rfl, rfl⟩
theorem witness_EnableBindsOrIsRefused_keeps :
    ∃ t, exec (.setErr false) (extended sSpace) = .next t ∧ (extended sSpace).regs.en = true ∧ t.regs.en = true :=
  ⟨_, rfl, rfl, rfl⟩
theorem witness_SetErrWritesOnlyErrEn :
    sSpace.regs.en = true ∧ State.reset.regs.en = false ∧ evOp 0xFFFFFFFFFC#40 = 4#3 := by decide
theorem witness_CloseResetsAndCancels :
    (sSpace.regs.en = true ∧ sSpace.regs.st ≠ .idle) ∧ (sIdle.regs.en = true ∧ sIdle.regs.st = .idle) ∧
    State.reset.regs.en = false ∧ (∀ x, Instr.timeout 0#4 ≠ .enable x) ∧ evOp 0xFFFFFFFFFD#40 = 5#3 := by decide
theorem witness_CloseResetsAndCancels_next : ∃ t, exec .close sSpace = .next t := ⟨_, rfl⟩
theorem witness_UnboundBlockIgnoresEvents : State.reset.regs.en = false := by decide
/-- sSpace with a rising edge, RST, a TIMEOUT and then an ENABLE still to come. -/
def sBusy : State :=
  { sSpace with port := [.event 0x0000006401#40, .rst, .event 0x0000000012#40, .event 0x0000000003#40] }
theorem witness_SilenceAfterCloseUntilEnable :
    ∃ t u, exec .close sBusy = .next t ∧ exec .close t = .next u ∧ (∀ x ∈ t.port.take 3, x.isEnable = false) :=
  ⟨_, _, rfl, rfl, by decide⟩
theorem witness_RepeatedEvents_setErr :
    ∃ t u, exec (.setErr true) sSpace = .next t ∧ exec (.setErr true) t = .next u := ⟨_, _, rfl, rfl⟩
theorem witness_RepeatedEvents_edge :
    sSpace.cfg.Legal ∧ sSpace.regs.en = true ∧ ∃ t, exec (.edgeRise 1266#32) sSpace = .next t := ⟨by decide, rfl, _, rfl⟩

/-! ## Witnesses: timeout -/

theorem witness_CurrentTimeoutEndsTheFrame :
    sPulse.Armed ∧ State.reset.regs.en = false ∧ sIdle.regs.st = .idle ∧ 14#4 ≠ sPulse.regs.tmoTag ∧
    evOp 0xFFFFFFFFFA#40 = 2#3 ∧ sIdle.cfg.Legal ∧ sIdle.regs.en = true ∧
    ((sIdle.cfg.timeoutMs * 1000 : Nat) : Int) < interval 12001#32 sIdle := by decide
theorem witness_StaleTimeoutAndItsLimit :
    sIdle.regs.st = .idle ∧ 14#4 ≠ sPulse.regs.tmoTag := by decide
theorem witness_StaleTimeoutAndItsLimit_rebound :
    ∃ t u, exec .close sPulse = .next t ∧ exec (.enable true) t = .next u := ⟨_, _, rfl, rfl⟩

/-! ## Witnesses: edges, at both ends of each window -/

theorem witness_IdleRisingEdgeSetsReference : sIdle.regs.en = true ∧ sIdle.regs.st = .idle := by decide
theorem witness_LeaderAcceptedOrNoiseIgnored :
    sIdle.regs.en = true ∧ sIdle.regs.st = .idle ∧ sIdle.regs.haveLast = true ∧ sIdle.regs.lastDir = .rising ∧
    sIdle.hits .lp 6750#32 = true ∧ sIdle.hits .lp 11250#32 = true ∧ sIdle.hits .lp 6749#32 = false ∧
    sIdle.hits .lp 11251#32 = false ∧ (atState .idle .falling 0#6 0#32 0#4).regs.lastDir = .falling ∧
    (bindDecoder true State.reset).regs.haveLast = false := by decide
theorem witness_LeaderSpaceStartsFrame :
    sAls.regs.en = true ∧ sAls.regs.st = .als ∧ sAls.hits .ls 3375#32 = true ∧ sAls.hits .ls 5625#32 = true := by decide
theorem witness_RepeatSpaceDeliversRepeat :
    sAls.regs.en = true ∧ sAls.regs.st = .als ∧ sAls.hits .ls 1688#32 = false ∧ sAls.hits .rs 1688#32 = true ∧
    sAls.hits .ls 2812#32 = false ∧ sAls.hits .rs 2812#32 = true ∧
    sIdle.cfg.windows = Windows.default ∧ sIdle.regs.en = true ∧ sIdle.regs.st = .idle ∧ interval 563#32 sIdle = 563 := by decide
theorem witness_LeaderAnomaliesAreErrors :
    sAls.regs.en = true ∧ sAls.regs.st = .als ∧ sAls.hits .ls 2813#32 = false ∧ sAls.hits .rs 2813#32 = false := by decide
theorem witness_BitPulseOutcomes :
    (sSpace.regs.en = true ∧ sSpace.regs.st = .rb ∧ sSpace.regs.lastDir = .falling) ∧
    (sPulse.regs.en = true ∧ sPulse.regs.st = .rb ∧ sPulse.regs.lastDir = .rising) ∧ sPulse.hits .lp 9000#32 = true ∧
    (sPulse.hits .lp 422#32 = false ∧ sPulse.hits .bp 422#32 = true) ∧
    (sPulse.hits .lp 703#32 = false ∧ sPulse.hits .bp 703#32 = true) ∧
    (sPulse.hits .lp 704#32 = false ∧ sPulse.hits .bp 704#32 = false) := by decide
theorem witness_BitSpaceOutcomes :
    (sPulse.regs.en = true ∧ sPulse.regs.st = .rb ∧ sPulse.regs.lastDir = .rising) ∧
    (sLast.Inv ∧ sLast.regs.en = true ∧ sLast.regs.st = .rb ∧ sLast.regs.lastDir = .falling ∧ sLast.hits .b1 2109#32 = true) ∧
    (sSpace.Inv ∧ sSpace.hits .b1 422#32 = false ∧ sSpace.hits .b0 422#32 = true) ∧
    (sSpace.regs.st = .rb ∧ sSpace.regs.lastDir = .falling ∧ sSpace.hits .b1 2110#32 = false ∧ sSpace.hits .b0 2110#32 = false) :=
  ⟨by decide, ⟨inv_sLast, by decide⟩, ⟨inv_sSpace, by decide⟩, by decide⟩
theorem witness_StopEdgeOutcomes :
    (sStop.regs.en = true ∧ sStop.regs.st = .asStop) ∧ sStop.hits .lp 9000#32 = true ∧
    (sStop.hits .lp 421#32 = false ∧ sStop.hits .bp 421#32 = false) ∧
    (sStop.hits .lp 422#32 = false ∧ sStop.hits .bp 422#32 = true) ∧
    extract sStop.regs.raw sStop.regs.ext = .ok 0x16#8 0#16 false ∧
    (sBad.regs.en = true ∧ sBad.regs.st = .asStop ∧ sBad.hits .lp 703#32 = false ∧ sBad.hits .bp 703#32 = true ∧
      extract sBad.regs.raw sBad.regs.ext = .fail) := by decide

/-! ## Witnesses: classifier and fields -/

theorem witness_SdiffIsTheSignedModularDifference :
    1 ≤ 32 ∧ 2147483648 ≤ 2 ^ (32 - 1) ∧ ((0x80000000#32).toNat + 2147483648) % 2 ^ 32 = (0#32).toNat % 2 ^ 32 ∧
    1 ≤ 2147483648 ∧ Params.default.Legal ∧ (-1 : Int) < 0 := by decide
theorem witness_ClassifyTestsEachWindow : narrow.Legal ∧ (0 : Int) ≤ 0 := by decide
theorem witness_PairsReadTogetherAreDisjoint : Params.default.Legal ∧ narrow.Legal := ⟨by decide, by decide⟩
theorem witness_StoreBitAppendsOneBit :
    sLast.regs.bitcnt.toNat ≤ 31 ∧ sLast.regs.bitcnt.toNat = 31 ∧ sLast.regs.raw.toNat < 2 ^ sLast.regs.bitcnt.toNat ∧
    sSpace.regs.bitcnt.toNat ≤ 31 := by decide
theorem witness_CorruptedInvertedByteIsCaught :
    (8 ≤ 15 ∧ 15 ≤ 15) ∧ (24 ≤ 31 ∧ 31 ≤ 31) ∧
    (sBad.regs.en = true ∧ sBad.regs.st = .asStop ∧ sBad.hits .lp 563#32 = false ∧ sBad.hits .bp 563#32 = true ∧
      extract sBad.regs.raw sBad.regs.ext = .fail) := by decide
theorem witness_AddressFormsOfBothVariants :
    extract 0xFF0000FF#32 false = .ok 0#8 0x00FF#16 false ∧
    ((0xFF0000FF#32).extractLsb' 16 8 = ~~~((0xFF0000FF#32).extractLsb' 24 8) ∧
      (0xFF0000FF#32).extractLsb' 0 8 = ~~~((0xFF0000FF#32).extractLsb' 8 8)) ∧
    ((0xFF000000#32).extractLsb' 16 8 = ~~~((0xFF000000#32).extractLsb' 24 8) ∧
      (0xFF000000#32).extractLsb' 0 8 ≠ ~~~((0xFF000000#32).extractLsb' 8 8)) := by decide
theorem witness_ResultWordLayout_fresh : sStop.Inv ∧ ∃ t, exec (.edgeFall 563#32) sStop = .next t ∧ t.out.decV = true ∧
    t.out.decWord.getLsbD 24 = false ∧ t.out.decWord.getLsbD 26 = false := ⟨inv_sStop, _, rfl, by decide⟩
theorem witness_ResultWordLayout_repeat : sAls.Inv ∧ ∃ t, exec (.edgeRise 2250#32) sAls = .next t ∧ t.out.decV = true ∧
    t.out.decWord.getLsbD 24 = true ∧ t.out.decWord.getLsbD 25 = false := ⟨inv_sAls, _, rfl, by decide⟩
theorem witness_ResultWordLayout_history : (sAls.setHistory 0x16#8 0x1234#16 true).Inv ∧
    ∃ t, exec (.edgeRise 2250#32) (sAls.setHistory 0x16#8 0x1234#16 true) = .next t ∧ t.out.decV = true ∧
    t.out.decWord.getLsbD 24 = true ∧ t.out.decWord.getLsbD 25 = true :=
  ⟨inv_of (by decide) (by decide) (by decide), _, rfl, by decide⟩

/-! ## Witnesses: errors and outputs -/

theorem witness_OutputRecordsAreLegal :
    ∃ t u, exec (.edgeFall 563#32) sBad = .next t ∧ step (sBad.present .rst) = .next u := ⟨_, _, rfl, rfl⟩
/-- One cause for each code. -/
theorem witness_ErrorCodesNameTheirCause :
    ((stOut (exec (.edgeFall 4500#32) sAls)).map fun p => (p.2.errV, p.2.errCode)) = some (true, 1#3) ∧
    ((stOut (exec (.edgeRise 2813#32) sAls)).map fun p => (p.2.errV, p.2.errCode)) = some (true, 2#3) ∧
    ((stOut (exec (.edgeFall 562#32) sSpace)).map fun p => (p.2.errV, p.2.errCode)) = some (true, 3#3) ∧
    ((stOut (exec (.edgeRise 704#32) sSpace)).map fun p => (p.2.errV, p.2.errCode)) = some (true, 3#3) ∧
    ((stOut (exec (.edgeRise 563#32) sStop)).map fun p => (p.2.errV, p.2.errCode)) = some (true, 3#3) ∧
    ((stOut (exec (.edgeFall 563#32) sBad)).map fun p => (p.2.errV, p.2.errCode)) = some (true, 4#3) ∧
    ((stOut (exec (.timeout 1#4) sAls)).map fun p => (p.2.errV, p.2.errCode)) = some (true, 5#3) ∧
    ((stOut (exec (.edgeFall 11250#32) sStop)).map fun p => (p.2.errV, p.2.errCode)) = some (true, 6#3) := by decide
theorem witness_ErrorReportDropsTheAttempt :
    (∃ t, exec (.timeout 1#4) sAls = .next t ∧ t.out.errV = true) ∧
    (∃ t, exec (.edgeRise 2813#32) sAls = .next t ∧ t.out.errV = true) ∧
    (∃ t, exec (.edgeFall 2813#32) sAls = .next t ∧ t.out.errV = true) :=
  ⟨⟨_, rfl, by decide⟩, ⟨_, rfl, by decide⟩, ⟨_, rfl, by decide⟩⟩
theorem witness_ErrorHandlerOnlyObserves :
    sBad.withoutErr = (unheard sBad).withoutErr ∧ sBad ≠ unheard sBad ∧ (∃ t, step sBad = .next t) ∧
    (∃ t, step (unheard sBad) = .next t) ∧ ∃ t, exec (.edgeFall 563#32) sBad = .next t ∧ t.out.errV = true :=
  ⟨by decide, by decide, ⟨_, rfl⟩, ⟨_, rfl⟩, _, rfl, by decide⟩
theorem witness_NoErrorInIdle : sIdle.regs.st = .idle ∧ ∃ t, exec (.edgeFall 5000#32) sIdle = .next t := ⟨rfl, _, rfl⟩

/-! ## Witnesses: whole-machine rules -/

/-- The block in ALS with its timeout scheduled at 0, an edge waiting, and a dead timeout with tag 0, asked for at 0. -/
def sysAls : System :=
  { block := sAls, timer := { now := 12000, line := some .rising, edges := [(.rising, 4500)], pending := some (1#4, 0), dead := [(0#4, 0)] } }
def env0 : EnvParams := { latencyUs := some 1000, arbitration := .either }

theorem inStep_sysAls : sysAls.InStep := ⟨inv_sAls, rfl, by decide⟩

theorem witness_HardwareResetClearsEverything :
    (∃ t u, step (sPulse.present .rst) = .next t ∧ exec (.enable true) t = .next u) ∧ sIdle.regs.st = .idle ∧
    ∃ z, sysAls.act env0 .reset = some z := ⟨⟨_, _, rfl, rfl⟩, rfl, _, rfl⟩
theorem witness_ResetMeetsTheInvariant : narrow.Legal := by decide
theorem witness_StepKeepsTheInvariant :
    (narrow.Legal ∧ (State.resetWith narrow).regs = Regs.reset) ∧ sLast.Inv ∧ sStop.Inv ∧ sAls.Inv ∧
    ∃ t, step (sLast.present (.event 0x0000069701#40)) = .next t := ⟨⟨by decide, rfl⟩, inv_sLast, inv_sStop, inv_sAls, _, rfl⟩
theorem witness_ArmedFollowsTheTimerRequests :
    (sIdle.Inv ∧ ¬ sIdle.Armed ∧ ∃ t, step (sIdle.present (.event 0x0000232809#40)) = .next t ∧ t.Armed) ∧
    (sAls.Inv ∧ sAls.Armed ∧ ∃ t, step (sAls.present .rst) = .next t ∧ ¬ t.Armed) :=
  ⟨⟨inv_sIdle, by decide, _, rfl, by decide⟩, inv_sAls, by decide, _, rfl, by decide⟩
theorem witness_TagMovesOnlyWithRestart :
    (∃ t, exec (.edgeFall 703#32) sPulse = .next t ∧ t.out.tmrCmd = 0b01#2) ∧
    (∃ t, exec .close sPulse = .next t ∧ t.out.tmrCmd = 0b10#2) ∧ (∃ t, exec .nop sPulse = .next t ∧ t.out.tmrCmd ≠ 0b01#2) :=
  ⟨⟨_, rfl, by decide⟩, ⟨_, rfl, by decide⟩, ⟨_, rfl, by decide⟩⟩
theorem witness_ControlFieldsFrame : ∃ t u, exec (.enable true) State.reset = .next t ∧ exec (.edgeFall 563#32) sStop = .next u :=
  ⟨_, _, rfl, rfl⟩
theorem witness_HistoryIsTheLastValidatedFrame : ∃ t, exec (.edgeFall 563#32) (extended sStop) = .next t ∧ t.regs.histValid = true :=
  ⟨_, rfl, by decide⟩
theorem witness_ResultsAreJustified :
    (∃ t, exec (.edgeFall 422#32) sStop = .next t ∧ t.out.decV = true) ∧
    (∃ t, exec (.edgeRise 1688#32) sAls = .next t ∧ t.out.decV = true) := ⟨⟨_, rfl, by decide⟩, ⟨_, rfl, by decide⟩⟩
theorem witness_AdvancingGapIsBounded :
    sAls.cfg.windows = Windows.default ∧ sAls.regs.st ≠ .idle ∧
    (∃ t, exec (.edgeRise 5625#32) sAls = .next t ∧ t.out.tmrCmd = 0b01#2) ∧ sSpace.regs.st = .rb ∧
    (∃ t, exec (.edgeRise 2109#32) sSpace = .next t ∧ t.out.tmrCmd = 0b01#2) :=
  ⟨rfl, by decide, ⟨_, rfl, by decide⟩, rfl, ⟨_, rfl, by decide⟩⟩
theorem witness_EdgeAndDueTimeoutCommute :
    sAls.Armed ∧ ∀ k : Category, ((sAls.cfg.windows.get k).hi : Int) < interval 11251#32 sAls :=
  ⟨by decide, fun k => by cases k <;> decide⟩
theorem witness_ContractKeepsTimerInStep :
    sysAls.InStep ∧ narrow.Legal ∧ (∃ z, sysAls.act env0 (.wait 1000) = some z) ∧
    (∃ z, sysAls.act env0 (.transition .falling) = some z) ∧ (∃ z, sysAls.act env0 .presentEdge = some z) ∧
    (∃ z, sysAls.act env0 .presentTimeout = some z) ∧ (∃ z, sysAls.act env0 (.presentLate 0#4 0) = some z) ∧
    (∃ z, sysAls.act env0 (.control .close) = some z) ∧ (∃ z, sysAls.act env0 .reset = some z) :=
  ⟨inStep_sysAls, by decide, ⟨_, rfl⟩, ⟨_, rfl⟩, ⟨_, rfl⟩, ⟨_, rfl⟩, ⟨_, rfl⟩, ⟨_, rfl⟩, ⟨_, rfl⟩⟩
/-- A wait beyond TIMER_LATENCY, a timeout before it is due, dead or not, an unknown dead tag, a repeated direction and a reserved
opcode are no actions. -/
theorem test_environment_duties :
    sysAls.act env0 (.wait 1001) = none ∧ sysAls.act env0 (.presentLate 1#4 0) = none ∧
    System.act env0 (.presentLate 0#4 0) { sysAls with timer := { sysAls.timer with now := 11999 } } = none ∧
    sysAls.act env0 (.transition .rising) = none ∧ sysAls.act env0 (.control .rsvd6) = none ∧
    sysAls.act env0 (.control .rsvd7) = none ∧
    System.act env0 .presentTimeout { sysAls with timer := { sysAls.timer with now := 11999 } } = none ∧
    sysAls.act { env0 with arbitration := .timeoutFirst } .presentEdge = none ∧
    sysAls.act { env0 with arbitration := .edgeFirst } .presentTimeout = none := by decide
/-- A RESTART that brings a dead tag back ends its late delivery (R157); the superseded tag becomes dead. -/
theorem test_dead_tag_reused :
    (({ sysAls.timer with dead := [(2#4, 5), (7#4, 6)] } : EdgeTimer).hear (restartRecord 2#4)).dead = [(1#4, 0), (7#4, 6)] := by
  decide
/-- RST ends the late delivery of every timeout from before it (R157, R161). -/
theorem test_reset_drops_dead : (sysAls.act env0 .reset).map (fun z => (z.timer.pending, z.timer.dead)) = some (none, []) := by
  decide
theorem witness_DeadTimeoutsNeverMatch : sysAls.InStep ∧ sysAls.DeadUnmatched ∧ ∃ z, sysAls.act env0 .presentEdge = some z :=
  ⟨inStep_sysAls, by decide, _, rfl⟩
theorem witness_DeliveredTimeoutIsHonoured :
    sysAls.InStep ∧ (∃ z, sysAls.act env0 .presentTimeout = some z) ∧ ∃ z, sysAls.act env0 (.presentLate 0#4 0) = some z :=
  ⟨inStep_sysAls, ⟨_, rfl⟩, _, rfl⟩

/-- A transmission whose intervals sit on window bounds, starting just before a 15-bit counter wraps. -/
def edgeCase : FrameTiming :=
  { start := 32767, leaderPulse := 11250, leaderSpace := 3375,
    bits := List.replicate 16 (422, 2109) ++ List.replicate 16 (703, 422), stopPulse := 703 }
/-- A bound idle block with that transmission still to come. -/
def sFrame : State :=
  { State.resetWith narrow with
    regs := { Regs.reset with en := true, ext := true, errEn := true }, port := edgeInputs 15 edgeCase.edges }
theorem witness_WellTimedFrameIsReceived :
    sFrame.Inv ∧ sFrame.regs.en = true ∧ sFrame.regs.st = .idle ∧ edgeCase.wellTimed sFrame.cfg.windows = true ∧
    sFrame.port = edgeInputs sFrame.cfg.tsWidth edgeCase.edges :=
  ⟨inv_of (by decide) (by decide) (by decide), rfl, rfl, by decide, rfl⟩
theorem witness_WellTimedFrameIsReceived_raw : edgeCase.raw sFrame.cfg.windows = 0x0000FFFF#32 := by decide

end Sys2Proof.Tests
end

section
/-! PROOFS. What one step runs (spec/00_scope.md R3), from the laws of `step` for its three kinds of input. -/

namespace Sys2Proof.Machine

/-- Settles O6: one clause for each shape of the port, each from the law of `step` for that shape. -/
theorem stepRunsTheDecodedEvent : Obligations.StepRunsTheDecodedEvent := by
  intro s w rest
  refine ⟨fun hport => ?event, fun hport => ?rst, fun hport => ?idle⟩
  case event => exact step_event s w rest hport
  case rst => exact step_rst s rest hport
  case idle => exact step_idle s hport

end Sys2Proof.Machine
end

section
/-! PROOFS. Every step keeps the invariant (spec/10_state.md R33, R20, spec/00_scope.md R7). R33 is cut into three parts, which the
rows of `Effect` keep for different reasons: an unbound block is at reset, the attempt fits the frame state, the history is a frame. -/

namespace Sys2Proof.Machine

/-! ## The parts of the invariant -/

/-- The second to the fifth invariant of R33: what the attempt's registers hold in each frame state. -/
def Regs.PhaseInv (r : Regs) : Prop :=
  match r.st with
  | .idle => r.bitcnt = 0#6 ∧ r.raw = 0#32
  | .als => r.bitcnt = 0#6 ∧ r.raw = 0#32 ∧ r.haveLast = true ∧ r.lastDir = .falling
  | .rb => r.bitcnt.toNat ≤ 31 ∧ r.raw.toNat < 2 ^ r.bitcnt.toNat ∧ r.haveLast = true
  | .asStop => r.bitcnt.toNat = 32 ∧ r.haveLast = true ∧ r.lastDir = .rising

/-- The last two invariants of R33: an empty history is all 0, and an 8-bit address has no high byte. -/
def Regs.HistoryInv (r : Regs) : Prop :=
  (r.histValid = false → r.lastCmd = 0#8 ∧ r.lastAddr = 0#16 ∧ r.lastXa = false) ∧
  (r.lastXa = false → r.lastAddr.extractLsb' 8 8 = 0#8)

theorem Regs.inv_iff (r : Regs) : r.Inv ↔ (r.en = false → r = Regs.reset) ∧ r.PhaseInv ∧ r.HistoryInv := by
  unfold Regs.PhaseInv Regs.HistoryInv
  cases hst : r.st <;> simp [hst]

theorem Regs.historyInv_reset : Regs.reset.HistoryInv := by unfold Regs.HistoryInv; decide

theorem Regs.phaseInv_idle {r : Regs} (hst : r.st = .idle) : r.PhaseInv ↔ r.bitcnt = 0#6 ∧ r.raw = 0#32 := by
  rw [PhaseInv, hst]

theorem Regs.phaseInv_rb {r : Regs} (hst : r.st = .rb) :
    r.PhaseInv ↔ r.bitcnt.toNat ≤ 31 ∧ r.raw.toNat < 2 ^ r.bitcnt.toNat ∧ r.haveLast = true := by
  rw [PhaseInv, hst]

theorem Regs.phaseInv_asStop {r : Regs} (hst : r.st = .asStop) :
    r.PhaseInv ↔ r.bitcnt.toNat = 32 ∧ r.haveLast = true ∧ r.lastDir = .rising := by
  rw [PhaseInv, hst]

theorem Regs.inv_reset : Regs.reset.Inv := by decide

/-- A legal build with its registers at reset meets the invariant (R150). -/
theorem State.inv_of_regs_reset {s : State} (hcfg : s.cfg.Legal) (hregs : s.regs = Regs.reset) : s.Inv := by
  refine ⟨hcfg, hregs ▸ Regs.inv_reset, ?_⟩
  rw [hregs]; exact Nat.two_pow_pos _

theorem Params.default_legal : Params.default.Legal := by decide

/-! ## Every row of `Effect` keeps each part -/

/-- R91: the bit stored at BITCNT keeps RAW below 2^BITCNT, and the 32nd one ends the data. -/
theorem Regs.phaseInv_bit {r : Regs} (b : Bool) (t : Timestamp) (g : Tag) (hst : r.st = .rb) (h : r.PhaseInv) :
    Regs.PhaseInv { r.edged .rising t with
      st := if (r.bitcnt + 1#6).toNat = frameBits then .asStop else .rb
      bitcnt := r.bitcnt + 1#6
      raw := setBit r.raw r.bitcnt.toNat b
      tmoTag := g } := by
  obtain ⟨hcnt, hraw, -⟩ := (Regs.phaseInv_rb hst).1 h
  have hnext : (r.bitcnt + 1#6).toNat = r.bitcnt.toNat + 1 := by
    simp only [BitVec.toNat_add, BitVec.toNat_ofNat]; omega
  by_cases hlast : (r.bitcnt + 1#6).toNat = frameBits
  · exact (Regs.phaseInv_asStop (if_pos hlast)).2 ⟨hlast, rfl, rfl⟩
  · refine (Regs.phaseInv_rb (if_neg hlast)).2 ⟨?_, ?_, rfl⟩
    · simp only [hnext, frameBits] at hlast ⊢; omega
    · simp only [hnext]; exact setBit_lt r.raw r.bitcnt.toNat b hraw

/-- An edge in IDLE moves the reference and no register of the attempt (R83). -/
theorem Regs.phaseInv_edged_idle {r : Regs} (d : Dir) (t : Timestamp) (hst : r.st = .idle) (h : r.PhaseInv) :
    (r.edged d t).PhaseInv :=
  (Regs.phaseInv_idle (r := r.edged d t) hst).2 ((Regs.phaseInv_idle hst).1 h)

/-- A bit pulse leaves the bits received (R89). -/
theorem Regs.phaseInv_pulse {r : Regs} (t : Timestamp) (g : Tag) (hst : r.st = .rb) (h : r.PhaseInv) :
    Regs.PhaseInv { r.edged .falling t with tmoTag := g } := by
  obtain ⟨hcnt, hraw, -⟩ := (Regs.phaseInv_rb hst).1 h
  exact (Regs.phaseInv_rb (r := { r.edged .falling t with tmoTag := g }) hst).2 ⟨hcnt, hraw, rfl⟩

theorem Effect.phaseInv {s : State} {i : Instr} {r : Regs} {o : Output} (he : Effect s i r o) (h : s.regs.PhaseInv) :
    r.PhaseInv := by
  cases he with
  | nop | rsvd6 | rsvd7 | unbound | bindFail | setErr | stale => exact h
  | bind | closeArmed | closeIdle => exact ⟨rfl, rfl⟩
  | expire | again | frame | riseError | fallError => exact ⟨rfl, rfl⟩
  | idleRise ts _ hst => exact Regs.phaseInv_edged_idle _ _ hst h
  | noise ts _ hst => exact Regs.phaseInv_edged_idle _ _ hst h
  | leader => exact ⟨rfl, rfl, rfl, rfl⟩
  | start => exact ⟨Nat.zero_le _, Nat.one_pos, rfl⟩
  | pulse ts _ hst => exact Regs.phaseInv_pulse _ _ hst h
  | bit ts b _ hst => exact Regs.phaseInv_bit b _ _ hst h

theorem extractLsb'_high_setWidth (b : Byte) : (b.setWidth 16).extractLsb' 8 8 = 0#8 := by revert b; decide

theorem Effect.historyInv {s : State} {i : Instr} {r : Regs} {o : Output} (he : Effect s i r o) (h : s.regs.HistoryInv) :
    r.HistoryInv := by
  cases he with
  | bind | closeArmed | closeIdle => exact Regs.historyInv_reset
  | frame ts a x _ _ _ _ _ ha =>
    refine ⟨nofun, fun hx => ?_⟩
    obtain ⟨-, rfl, -⟩ | ⟨-, -, -, rfl⟩ := ha
    · exact extractLsb'_high_setWidth _
    · cases hx
  | _ => exact h

/-- The first invariant of R33: only CLOSE unbinds the block, and it resets every register. -/
theorem Effect.reset_of_unbound {s : State} {i : Instr} {r : Regs} {o : Output} (he : Effect s i r o)
    (h : s.regs.en = false → s.regs = Regs.reset) (hr : r.en = false) : r = Regs.reset := by
  cases he with
  | nop | rsvd6 | rsvd7 | unbound => exact h hr
  | closeArmed | closeIdle => rfl
  | bind => cases hr
  | bindFail _ hen | setErr _ hen | stale _ hen | expire hen | idleRise _ hen | noise _ hen | leader _ hen | start _ hen
  | again _ hen | pulse _ hen | bit _ _ hen | frame _ _ _ hen | riseError _ _ hen | fallError _ _ hen =>
    exact absurd (hen.symm.trans hr) nofun

theorem Effect.regs_inv {s : State} {i : Instr} {r : Regs} {o : Output} (he : Effect s i r o) (h : s.regs.Inv) : r.Inv := by
  obtain ⟨hreset, hphase, hhist⟩ := (Regs.inv_iff _).1 h
  exact (Regs.inv_iff r).2 ⟨he.reset_of_unbound hreset, he.phaseInv hphase, he.historyInv hhist⟩

/-- T_LAST is kept, reset, or the truncated time of an edge (R81), so it keeps its TS_WIDTH bits. -/
theorem Effect.tLast_lt {s : State} {i : Instr} {r : Regs} {o : Output} (he : Effect s i r o)
    (h : s.regs.tLast.toNat < 2 ^ s.cfg.tsWidth) : r.tLast.toNat < 2 ^ s.cfg.tsWidth := by
  cases he with
  | nop | rsvd6 | rsvd7 | unbound | bindFail | setErr | stale | expire => exact h
  | bind | closeArmed | closeIdle => exact Nat.two_pow_pos _
  | idleRise | noise | leader | start | again | pulse | bit | frame | riseError | fallError => exact edgeTime_lt _ _

/-! ## Every step keeps the invariant -/

theorem exec_inv {i : Instr} {s t : State} (h : exec i s = .next t) (hs : s.Inv) : t.Inv := by
  obtain ⟨r, o, he, rfl⟩ := exec_cases h
  obtain ⟨hcfg, hregs, htime⟩ := hs
  exact ⟨hcfg, he.regs_inv hregs, he.tLast_lt htime⟩

theorem hardwareReset_inv {s : State} (hs : s.Inv) : (hardwareReset s).Inv :=
  State.inv_of_regs_reset hs.1 rfl

theorem step_inv {s t : State} (h : step s = .next t) (hs : s.Inv) : t.Inv := by
  obtain ⟨w, rest, -, hexec⟩ | ⟨rest, -, rfl⟩ | ⟨-, rfl⟩ := step_cases h
  · exact exec_inv hexec hs
  · exact hardwareReset_inv hs
  · exact hs

/-- Settles O43: reset is one case of a legal build with its registers at reset. -/
theorem resetMeetsTheInvariant : Obligations.ResetMeetsTheInvariant :=
  ⟨State.inv_of_regs_reset Params.default_legal rfl, fun _ hp => State.inv_of_regs_reset hp rfl⟩

/-- Settles O44: reset meets the invariant, and each of its parts survives every row of `Effect` (`step_inv`). -/
theorem stepKeepsTheInvariant : Obligations.StepKeepsTheInvariant :=
  ⟨fun _ hcfg hregs => State.inv_of_regs_reset hcfg hregs, fun _ _ hs h => step_inv h hs⟩

end Sys2Proof.Machine
end

section
/-! PROOFS. What a step does to the armed condition and the tag (spec/10_state.md R28, R34, spec/43_timeout.md R110 to R113,
spec/44_control.md R119), said once from the rows of `Effect`; the statements about timer requests follow from it. -/

namespace Sys2Proof.Machine

/-- The four ways an event, leading from s to t, treats the block's timeout: it asks for a new one, takes the scheduled one back,
is the scheduled one, or leaves it alone. -/
inductive TimerMove (i : Instr) (s t : State) : Prop
  | restart (hi : ∀ g, i ≠ .timeout g) (hcmd : t.out.tmrCmd = 1#2) (htag : t.regs.tmoTag = s.regs.tmoTag + 1#4)
      (hsent : t.out.tmrTag = t.regs.tmoTag) (ht : t.Armed)
  | cancel (hi : ∀ g, i ≠ .timeout g) (hcmd : t.out.tmrCmd = 2#2) (hsent : t.out.tmrTag = s.regs.tmoTag)
      (htag : t.regs.tmoTag = s.regs.tmoTag ∨ t.regs.tmoTag = 0#4 ∧ i = .close) (hs : s.Armed) (ht : ¬ t.Armed)
  | fired (hi : i = .timeout s.regs.tmoTag) (hcmd : t.out.tmrCmd = 0#2) (htag : t.regs.tmoTag = s.regs.tmoTag)
      (hs : s.Armed) (ht : ¬ t.Armed)
  | kept (hi : s.Armed → i ≠ .timeout s.regs.tmoTag) (hcmd : t.out.tmrCmd = 0#2) (harmed : t.Armed ↔ s.Armed)
      (htag : t.regs.tmoTag = s.regs.tmoTag ∨ t.regs.tmoTag = 0#4 ∧ (i = .close ∨ ∃ x, i = .enable x) ∧ ¬ s.Armed)

theorem State.not_armed_of_unbound {s : State} (h : s.regs.en = false) : ¬ s.Armed :=
  fun ha => absurd (h.symm.trans ha.1) nofun

theorem State.not_armed_of_idle {s : State} (h : s.regs.st = .idle) : ¬ s.Armed := fun ha => ha.2 h

theorem State.armed_of_st {s : State} {f : FrameState} (hen : s.regs.en = true) (hst : s.regs.st = f) (hf : f ≠ .idle) :
    s.Armed :=
  ⟨hen, hst ▸ hf⟩

/-- An error is raised outside IDLE only (R82, R83). -/
theorem RiseError.st_ne_idle {s : State} {ts : Timestamp} {e : ErrorCode} (h : RiseError s ts e) : s.regs.st ≠ .idle := by
  cases h with
  | space hst | twice hst | bit hst | stop hst => rw [hst]; decide

theorem FallError.st_ne_idle {s : State} {ts : Timestamp} {e : ErrorCode} (h : FallError s ts e) : s.regs.st ≠ .idle := by
  cases h with
  | leader hst | twice hst | overrunBit hst | bit hst | overrunStop hst | stop hst | checksum hst => rw [hst]; decide

/-- The error exit cancels the timeout of the attempt it drops (R133). -/
theorem TimerMove.of_errorExit {i : Instr} {s : State} {r : Regs} {b : Bool} {c : BitVec 3} (hi : ∀ g, i ≠ .timeout g)
    (hs : s.Armed) (hst : r.st = .idle) (htag : r.tmoTag = s.regs.tmoTag) :
    TimerMove i s (s.answer r (errorRecord b c s.regs.tmoTag)) :=
  .cancel hi (errorRecord_tmrCmd ..) (errorRecord_tmrTag ..) (.inl htag) hs (State.not_armed_of_idle hst)

theorem Effect.timerMove {s : State} {i : Instr} {r : Regs} {o : Output} (he : Effect s i r o) :
    TimerMove i s (s.answer r o) := by
  cases he with
  | nop | rsvd6 | rsvd7 | bindFail | setErr => exact .kept nofun rfl .rfl (.inl rfl)
  | unbound _ hen => exact .kept (fun ha => absurd ha (State.not_armed_of_unbound hen)) rfl .rfl (.inl rfl)
  | bind x hen =>
    have hs := State.not_armed_of_unbound hen
    exact .kept nofun rfl (iff_of_false (State.not_armed_of_idle rfl) hs) (.inr ⟨rfl, .inr ⟨x, rfl⟩, hs⟩)
  | closeIdle _ hst =>
    have hs := State.not_armed_of_idle hst
    exact .kept nofun rfl (iff_of_false (State.not_armed_of_idle rfl) hs) (.inr ⟨rfl, .inl rfl, hs⟩)
  | stale g _ hg =>
    refine .kept (fun ha heq => ?_) rfl .rfl (.inl rfl)
    obtain hst | hne := hg
    · exact ha.2 hst
    · exact hne (Instr.timeout.inj heq)
  | expire hen hst => exact .fired rfl (timeoutRecord_tmrCmd _) rfl ⟨hen, hst⟩ (State.not_armed_of_idle rfl)
  | idleRise | noise => exact .kept nofun rfl .rfl (.inl rfl)
  | leader _ hen | start _ hen => exact .restart nofun rfl rfl rfl ⟨hen, nofun⟩
  | pulse _ hen hst => exact .restart nofun rfl rfl rfl (State.armed_of_st hen hst nofun)
  | bit _ _ hen => exact .restart nofun rfl rfl rfl ⟨hen, by simp only [State.answer_regs]; split <;> nofun⟩
  | closeArmed hen hst =>
    exact .cancel nofun rfl rfl (.inr ⟨rfl, rfl⟩) ⟨hen, hst⟩ (State.not_armed_of_idle rfl)
  | again _ hen hst | frame _ _ _ hen hst =>
    exact .cancel nofun rfl rfl (.inl rfl) (State.armed_of_st hen hst nofun) (State.not_armed_of_idle rfl)
  | riseError _ _ hen he => exact .of_errorExit nofun ⟨hen, he.st_ne_idle⟩ rfl rfl
  | fallError _ _ hen he => exact .of_errorExit nofun ⟨hen, he.st_ne_idle⟩ rfl rfl

/-- Everything an event can do to the block's timeout. -/
theorem exec_timerMove {i : Instr} {s t : State} (h : exec i s = .next t) : TimerMove i s t := by
  obtain ⟨r, o, he, rfl⟩ := exec_cases h
  exact he.timerMove

/-- Settles O46: the tag in each of the four moves. -/
theorem tagMovesOnlyWithRestart : Obligations.TagMovesOnlyWithRestart := by
  intro i s t h
  cases exec_timerMove h with
  | restart _ hcmd htag hsent => exact ⟨fun _ => ⟨htag, hsent⟩, by simp [hcmd], fun hne => absurd hcmd hne⟩
  | cancel _ hcmd hsent htag => exact ⟨by simp [hcmd], fun _ => hsent, fun _ => htag.imp_right fun ⟨h0, hi⟩ => ⟨h0, .inl hi⟩⟩
  | fired _ hcmd htag => exact ⟨by simp [hcmd], by simp [hcmd], fun _ => .inl htag⟩
  | kept _ hcmd _ htag => exact ⟨by simp [hcmd], by simp [hcmd], fun _ => htag.imp_right fun ⟨h0, hi, _⟩ => ⟨h0, hi⟩⟩

/-- R34 for one event: armed after it means that it asked for a timeout, or that an armed block was left alone. -/
theorem TimerMove.armed_iff {i : Instr} {s t : State} (h : TimerMove i s t) :
    t.Armed ↔ t.out.tmrCmd = 1#2 ∨ (t.out.tmrCmd = 0#2 ∧ s.Armed ∧ i ≠ .timeout s.regs.tmoTag) := by
  cases h with
  | restart _ hcmd _ _ ht => exact iff_of_true ht (.inl hcmd)
  | cancel _ hcmd _ _ _ ht => exact iff_of_false ht (by simp [hcmd])
  | fired hi hcmd _ _ ht => exact iff_of_false ht (by simp [hcmd, hi])
  | kept hi hcmd harmed =>
    refine harmed.trans ⟨fun hs => .inr ⟨hcmd, hs, hi hs⟩, ?_⟩
    rintro (h1 | ⟨-, hs, -⟩)
    · exact absurd (hcmd.symm.trans h1) (by decide)
    · exact hs

/-- What disarms the block: a CANCEL, or its own timeout, which drives no request. -/
theorem TimerMove.disarmed {i : Instr} {s t : State} (h : TimerMove i s t) (hs : s.Armed) (ht : ¬ t.Armed) :
    t.out.tmrCmd = 2#2 ∨ (i = .timeout s.regs.tmoTag ∧ t.out.tmrCmd = 0#2) := by
  cases h with
  | restart _ _ _ _ ht' => exact absurd ht' ht
  | cancel _ hcmd => exact .inl hcmd
  | fired hi hcmd => exact .inr ⟨hi, hcmd⟩
  | kept _ _ harmed => exact absurd (harmed.2 hs) ht

/-- What arms the block: a RESTART. -/
theorem TimerMove.newly_armed {i : Instr} {s t : State} (h : TimerMove i s t) (hs : ¬ s.Armed) (ht : t.Armed) :
    t.out.tmrCmd = 1#2 :=
  (h.armed_iff.1 ht).resolve_right fun ⟨_, hs', _⟩ => hs hs'

theorem hardwareReset_not_armed (s : State) : ¬ (hardwareReset s).Armed := State.not_armed_of_unbound rfl

/-- Settles O45: an event is one of the four moves, and RST disarms without a request. -/
theorem armedFollowsTheTimerRequests : Obligations.ArmedFollowsTheTimerRequests := by
  intro x s t _ h
  cases x with
  | rst =>
    rw [step_present_rst] at h
    cases h
    have ht := hardwareReset_not_armed s
    refine ⟨iff_of_false ht ?_, fun _ ha => absurd ha ht, fun _ _ => .inr (.inl rfl)⟩
    rintro (h1 | ⟨-, -, hne, -⟩)
    · exact absurd h1 (by simp [hardwareReset])
    · exact hne rfl
  | event w =>
    rw [step_present_event] at h
    have hmove := exec_timerMove h
    refine ⟨hmove.armed_iff.trans (by simp), hmove.newly_armed, fun hs ht => ?_⟩
    exact (hmove.disarmed hs ht).imp_right fun ⟨hi, hcmd⟩ => .inr ⟨w, rfl, hi, hcmd⟩

end Sys2Proof.Machine
end

section
/-! PROOFS. The fields each event writes: EN, EXT and ERR_EN (spec/10_state.md R22), and the history (R29, spec/42_fields.md R104),
row by row of `Effect`. -/

namespace Sys2Proof.Machine

/-- Settles O47: the rows of ENABLE, SETERR and CLOSE write the three fields, by the guard EN; every other row keeps them. -/
theorem controlFieldsFrame : Obligations.ControlFieldsFrame := by
  intro i s t h
  obtain ⟨r, o, he, rfl⟩ := exec_cases h
  refine ⟨rfl, rfl, ?_⟩
  cases he with
  | bind x hen => simp [hen, Regs.reset]
  | bindFail x hen => simp [hen]
  | setErr e hen => simp [hen]
  | closeArmed hen | closeIdle hen => simp [hen, Regs.reset]
  | unbound i hen hi =>
    cases i with
    | enable x => exact absurd rfl (hi x)
    | setErr | close => simp [hen]
    | _ => rfl
  | _ => rfl

/-- A record that delivers a fresh result: DEC with REPEAT = 0 (R60, R61). -/
abbrev Output.Fresh (o : Output) : Prop := o.decV = true ∧ o.decWord.getLsbD 24 = false

theorem not_fresh_of_no_dec {o : Output} (h : o.decV = false) : ¬ o.Fresh := fun hf => absurd (h.symm.trans hf.1) nofun

/-- A repeat result is not fresh (R85). -/
theorem not_fresh_of_repeat (c : Byte) (a : BitVec 16) (v x : Bool) (g : Tag) :
    ¬ (decRecord (packDec c a true v x) g).Fresh :=
  fun hf => absurd ((packDec_repeat c a true v x).symm.trans hf.2) nofun

/-- Settles O48: a validated frame is the one row that writes the history, and CLOSE and ENABLE the ones that clear it. -/
theorem historyIsTheLastValidatedFrame : Obligations.HistoryIsTheLastValidatedFrame := by
  intro i s t h
  obtain ⟨r, o, he, rfl⟩ := exec_cases h
  cases he with
  | frame => exact .inr (.inr ⟨rfl, packDec_repeat .., rfl, (packDec_cmd ..).symm, (packDec_addr ..).symm, (packDec_xaddr ..).symm⟩)
  | bind x => exact .inr (.inl ⟨.inr ⟨x, rfl⟩, rfl, rfl, rfl, rfl, rfl⟩)
  | closeArmed | closeIdle => exact .inr (.inl ⟨.inl rfl, rfl, rfl, rfl, rfl, rfl⟩)
  | again => exact .inl ⟨rfl, not_fresh_of_repeat _ _ _ _ _⟩
  | expire => exact .inl ⟨rfl, not_fresh_of_no_dec (timeoutRecord_decV _)⟩
  | riseError | fallError => exact .inl ⟨rfl, not_fresh_of_no_dec (errorRecord_decV ..)⟩
  | _ => exact .inl ⟨rfl, not_fresh_of_no_dec rfl⟩

end Sys2Proof.Machine
end

section
/-! PROOFS. The block and its Edge Timer stay in step (spec/10_state.md R34, spec/60_exceptions.md R137, R138,
spec/70_reset_and_hazards.md R153; the environment is that of log 10). -/

namespace Sys2Proof

/-- An event is read back from its word: the fields of R50 come back from the packing. -/
theorem decode_encode (i : Instr) : decode (encode i) = i := by
  cases i with
  | nop => exact decode_nop (evOp_packEvent ..)
  | edgeRise ts =>
    rw [encode, decode_edge (evOp_packEvent ..), evDir_packEvent, if_pos rfl, evTs_packEvent]
  | edgeFall ts =>
    rw [encode, decode_edge (evOp_packEvent ..), evDir_packEvent, if_neg (by decide), evTs_packEvent]
  | timeout g => rw [encode, decode_timeout (evOp_packEvent ..), evArg_packEvent]
  | enable x => rw [encode, decode_enable (evOp_packEvent ..), evArg0, evArg_packEvent, arg1_getLsbD_zero]
  | setErr e => rw [encode, decode_setErr (evOp_packEvent ..), evArg0, evArg_packEvent, arg1_getLsbD_zero]
  | close => exact decode_close (evOp_packEvent ..)
  | rsvd6 => exact decode_rsvd6 (evOp_packEvent ..)
  | rsvd7 => exact decode_rsvd7 (evOp_packEvent ..)

end Sys2Proof

namespace Sys2Proof.Machine

/-! ## One input of the closed system -/

/-- What the closed system is after an event: the block ran it, and the Edge Timer heard its record. -/
theorem System.feed_encode {i : Instr} {y z : System} (h : System.feed (.event (encode i)) y = some z) :
    ∃ t, exec i y.block = .next t ∧ z = { block := t, timer := y.timer.hear t.out } := by
  rw [System.feed, step_present_event, decode_encode] at h
  obtain ⟨r, o, -, hexec⟩ := exec_effect i y.block
  rw [hexec] at h
  exact ⟨_, hexec, (Option.some.inj h).symm⟩

/-- What the closed system is after RST: RST drives no request, so the Edge Timer hears none (R150). -/
theorem System.feed_rst (y : System) :
    System.feed .rst y = some { block := hardwareReset y.block, timer := y.timer } := by
  rw [System.feed, step_present_rst]
  exact congrArg (fun t => some (System.mk _ t)) (EdgeTimer.hear_none _ _ rfl)

/-! ## The scheduled timeout follows the block's requests -/

/-- The tag of the timeout the Edge Timer holds, if any. -/
def EdgeTimer.scheduled (t : EdgeTimer) : Option Tag := t.pending.map Prod.fst

/-- The timeout an Edge Timer in step with the block holds. -/
def State.expected (s : State) : Option Tag := if s.Armed then some s.regs.tmoTag else none

theorem State.expected_armed {s : State} (h : s.Armed) : s.expected = some s.regs.tmoTag := if_pos h

theorem State.expected_not_armed {s : State} (h : ¬ s.Armed) : s.expected = none := if_neg h

/-- Only an armed block has a timeout scheduled, and it carries its tag. -/
theorem State.expected_eq_some {s : State} {g : Tag} (h : s.expected = some g) : s.Armed ∧ g = s.regs.tmoTag := by
  by_cases hs : s.Armed
  · rw [State.expected_armed hs] at h; exact ⟨hs, (Option.some.inj h).symm⟩
  · rw [State.expected_not_armed hs] at h; cases h

theorem EdgeTimer.scheduled_hear_restart {o : Output} (t : EdgeTimer) (h : o.tmrCmd = 1#2) :
    (t.hear o).scheduled = some o.tmrTag := by
  rw [scheduled, EdgeTimer.hear_pending, if_pos h]

/-- A CANCEL with the tag that is scheduled takes it away (R138). -/
theorem EdgeTimer.scheduled_hear_cancel {o : Output} {t : EdgeTimer} (h : o.tmrCmd = 2#2) (ht : t.scheduled = some o.tmrTag) :
    (t.hear o).scheduled = none := by
  rw [scheduled, EdgeTimer.hear_pending, if_neg (by rw [h]; decide), if_pos ⟨h, ht⟩]

/-- After any event but the block's own timeout, the Edge Timer holds what the block then expects. -/
theorem TimerMove.scheduled_hear {i : Instr} {s t : State} (h : TimerMove i s t) {e : EdgeTimer}
    (he : e.scheduled = s.expected) (hi : s.Armed → i ≠ .timeout s.regs.tmoTag) : (e.hear t.out).scheduled = t.expected := by
  cases h with
  | restart _ hcmd _ hsent ht =>
    rw [EdgeTimer.scheduled_hear_restart e hcmd, State.expected_armed ht, hsent]
  | cancel _ hcmd hsent _ hs ht =>
    rw [State.expected_armed hs, ← hsent] at he
    rw [EdgeTimer.scheduled_hear_cancel hcmd he, State.expected_not_armed ht]
  | fired hi' _ _ hs => exact absurd hi' (hi hs)
  | kept _ hcmd harmed htag =>
    rw [EdgeTimer.hear_none _ _ hcmd, he]
    by_cases hs : s.Armed
    · have htag' : t.regs.tmoTag = s.regs.tmoTag := htag.resolve_right fun ⟨_, _, hns⟩ => hns hs
      rw [State.expected_armed hs, State.expected_armed (harmed.2 hs), htag']
    · rw [State.expected_not_armed hs, State.expected_not_armed (mt harmed.1 hs)]

/-- The block's own timeout disarms it, and with it delivered none is scheduled (R112). -/
theorem TimerMove.scheduled_hear_fired {s t : State} (h : TimerMove (.timeout s.regs.tmoTag) s t) {e : EdgeTimer}
    (hs : s.Armed) (he : e.scheduled = none) : (e.hear t.out).scheduled = t.expected := by
  cases h with
  | restart hi | cancel hi => exact absurd rfl (hi _)
  | fired _ hcmd _ _ ht => rw [EdgeTimer.hear_none _ _ hcmd, he, State.expected_not_armed ht]
  | kept hi => exact absurd rfl (hi hs)

/-! ## Every action keeps the system in step -/

theorem System.inStep_iff (y : System) :
    y.InStep ↔ y.block.Inv ∧ y.block.port = [] ∧ y.timer.scheduled = y.block.expected := .rfl

section Feed
variable {b : State} {e : EdgeTimer} {z : System} (hinv : b.Inv) (hport : b.port = [])
include hinv hport

/-- An event that is not the block's own timeout. -/
theorem System.inStep_feed_event {i : Instr} (h : System.feed (.event (encode i)) ⟨b, e⟩ = some z)
    (hsched : e.scheduled = b.expected) (hi : b.Armed → i ≠ .timeout b.regs.tmoTag) : z.InStep := by
  obtain ⟨t, hexec, rfl⟩ := System.feed_encode h
  exact ⟨exec_inv hexec hinv, (exec_port hexec).trans hport, (exec_timerMove hexec).scheduled_hear hsched hi⟩

/-- The block's own timeout, taken off the Edge Timer as it is delivered. -/
theorem System.inStep_feed_timeout (h : System.feed (.event (encode (.timeout b.regs.tmoTag))) ⟨b, e⟩ = some z)
    (hsched : e.scheduled = none) (harmed : b.Armed) : z.InStep := by
  obtain ⟨t, hexec, rfl⟩ := System.feed_encode h
  exact ⟨exec_inv hexec hinv, (exec_port hexec).trans hport, (exec_timerMove hexec).scheduled_hear_fired harmed hsched⟩

theorem System.inStep_feed_rst (h : System.feed .rst ⟨b, e⟩ = some z) (hsched : e.scheduled = none) : z.InStep := by
  rw [System.feed_rst] at h
  cases h
  exact ⟨hardwareReset_inv hinv, hport, hsched.trans (State.expected_not_armed (hardwareReset_not_armed _)).symm⟩

end Feed

theorem edgeEvent_ne_timeout (W : Nat) (d : Dir) (time : Nat) (g : Tag) : edgeEvent W d time ≠ .timeout g := by
  cases d <;> nofun

theorem isControl_ne_timeout {i : Instr} (h : isControl i = true) (g : Tag) : i ≠ .timeout g := by
  rintro rfl; cases h

/-- A timeout the block ignores is not its own (R113, R121). -/
theorem ne_tmoTag_of_ignoresTimeout {g : Tag} {s : State} (h : ignoresTimeout g s = true) (hs : s.Armed) :
    g ≠ s.regs.tmoTag := by
  obtain ⟨hen, hst⟩ := hs
  simp only [ignoresTimeout, hen, Bool.not_true, Bool.false_or, staleTimeout_iff] at h
  exact h.resolve_left hst

theorem System.act_inStep {env : EnvParams} {a : EnvAction} {y z : System} (hy : y.InStep) (h : y.act env a = some z) :
    z.InStep := by
  obtain ⟨hinv, hport, hsched⟩ := y.inStep_iff.1 hy
  cases a with
  | wait us =>
    simp only [System.act] at h
    split at h <;> cases h
    exact hy
  | transition dir =>
    simp only [System.act] at h
    split at h <;> cases h
    exact hy
  | presentEdge =>
    simp only [System.act] at h
    split at h
    · cases h
    split at h
    · cases h
    exact System.inStep_feed_event hinv hport h hsched (fun _ => edgeEvent_ne_timeout _ _ _ _)
  | presentTimeout =>
    simp only [System.act] at h
    split at h
    · cases h
    next g armedAt hpending =>
      split at h
      · obtain ⟨harmed, rfl⟩ := State.expected_eq_some (hsched.symm.trans (congrArg (Option.map Prod.fst) hpending))
        exact System.inStep_feed_timeout hinv hport h rfl harmed
      · cases h
  | presentLate g armedAt =>
    simp only [System.act] at h
    split at h
    next hlate =>
      obtain ⟨-, -, hign⟩ := hlate
      refine System.inStep_feed_event hinv hport h hsched (fun ha heq => ?_)
      exact ne_tmoTag_of_ignoresTimeout hign ha (Instr.timeout.inj heq)
    · cases h
  | control i =>
    simp only [System.act] at h
    split at h
    next hctl => exact System.inStep_feed_event hinv hport h hsched (fun _ => isControl_ne_timeout hctl _)
    · cases h
  | reset =>
    simp only [System.act] at h
    exact System.inStep_feed_rst hinv hport h rfl

theorem System.boot_inStep {p : Params} (hp : p.Legal) : (System.boot p).InStep :=
  ⟨State.inv_of_regs_reset hp rfl, rfl, rfl⟩

/-- Settles O52: at boot nothing is armed and nothing scheduled, and each action keeps the system in step (`System.act_inStep`). -/
theorem contractKeepsTimerInStep : Obligations.ContractKeepsTimerInStep :=
  ⟨fun _ hp => System.boot_inStep hp, fun _ _ _ _ hy h => System.act_inStep hy h⟩

end Sys2Proof.Machine
end

section
/-! PROOFS. Repeated events (spec/20_memory.md R46): what a bare no-op, SETERR and CLOSE leave in the registers, and the reference
an edge leaves behind (spec/41_frame_fsm.md R81). -/

namespace Sys2Proof.Machine

/-! ## The registers after a repeatable event -/

/-- The registers after the events without any effect (R115, R120). -/
theorem exec_regs_of_noop {i : Instr} {s t : State} (hi : i = .nop ∨ i = .rsvd6 ∨ i = .rsvd7) (h : exec i s = .next t) :
    t.regs = s.regs := by
  obtain ⟨r, o, he, rfl⟩ := exec_cases h
  obtain rfl | rfl | rfl := hi <;> cases he <;> rfl

/-- The registers after SETERR e, behind the gate of EN (R117, R121). -/
theorem exec_setErr_regs {e : Bool} {s t : State} (h : exec (.setErr e) s = .next t) :
    t.regs = if s.regs.en then { s.regs with errEn := e } else s.regs := by
  obtain ⟨r, o, he, rfl⟩ := exec_cases h
  cases he with
  | setErr _ hen => rw [if_pos hen]; rfl
  | unbound _ hen => rw [if_neg (by simp [hen])]; rfl

/-- The registers after CLOSE: at reset, or those of a block that was unbound already (R119). -/
theorem exec_close_regs {s t : State} (h : exec .close s = .next t) :
    t.regs = if s.regs.en then Regs.reset else s.regs := by
  obtain ⟨r, o, he, rfl⟩ := exec_cases h
  cases he with
  | closeArmed hen | closeIdle hen => rw [if_pos hen]; rfl
  | unbound _ hen => rw [if_neg (by simp [hen])]; rfl

/-- SETERR writes a constant and leaves EN, so its gate answers the same the second time. -/
theorem exec_setErr_twice_regs {e : Bool} {s t u : State} (h : exec (.setErr e) s = .next t)
    (h' : exec (.setErr e) t = .next u) : u.regs = t.regs := by
  rw [exec_setErr_regs h', exec_setErr_regs h]
  by_cases hen : s.regs.en = true <;> simp [hen]

/-- CLOSE leaves the block unbound, and an unbound block ignores the second one. -/
theorem exec_close_twice_regs {s t u : State} (h : exec .close s = .next t) (h' : exec .close t = .next u) :
    u.regs = t.regs := by
  have hen : ¬ t.regs.en = true := by
    rw [exec_close_regs h]
    split
    · nofun
    · assumption
  rw [exec_close_regs h', if_neg hen]

/-! ## The interval after a repeated edge -/

theorem sdiffW_self (W : Nat) (t : Timestamp) : sdiffW W t t = 0 := by simp [sdiffW]

/-- The prologue of R81: whatever an edge does on a bound block, its time becomes the reference. -/
theorem Effect.tLast_edge {s : State} {i : Instr} {r : Regs} {o : Output} {ts : Timestamp} (he : Effect s i r o)
    (hi : i = .edgeRise ts ∨ i = .edgeFall ts) (hen : s.regs.en = true) : r.tLast = s.timeOf ts := by
  obtain rfl | rfl := hi
  · cases he with
    | unbound _ hen' => exact absurd (hen.symm.trans hen') nofun
    | idleRise | start | again | bit | riseError => rfl
  · cases he with
    | unbound _ hen' => exact absurd (hen.symm.trans hen') nofun
    | noise | leader | pulse | frame | fallError => rfl

/-- After an edge on a bound block, an edge with the same timestamp ends an interval of 0 µs. -/
theorem interval_repeated_edge {i : Instr} {s t : State} {ts : Timestamp} (h : exec i s = .next t)
    (hi : i = .edgeRise ts ∨ i = .edgeFall ts) (hen : s.regs.en = true) : interval ts t = 0 := by
  obtain ⟨r, o, he, rfl⟩ := exec_cases h
  have href : (s.answer r o).regs.tLast = edgeTime s.cfg.tsWidth ts := he.tLast_edge hi hen
  rw [interval, href]
  exact sdiffW_self _ _

/-- Settles O15: the registers after each repeatable event, taken twice, and the reference an edge leaves. The interval is 0
for every TS_WIDTH, so the legality of the parameters is not used. -/
theorem repeatedEvents : Obligations.RepeatedEvents := by
  refine ⟨fun i s t u h h' hi => ?_, fun s t ts _ hen h => ?_⟩
  · obtain rfl | ⟨e, rfl⟩ | rfl | rfl | rfl := hi
    · exact exec_regs_of_noop (.inl rfl) h'
    · exact exec_setErr_twice_regs h h'
    · exact exec_close_twice_regs h h'
    · exact exec_regs_of_noop (.inr (.inl rfl)) h'
    · exact exec_regs_of_noop (.inr (.inr rfl)) h'
  · obtain h | h := h
    · exact interval_repeated_edge h (.inl rfl) hen
    · exact interval_repeated_edge h (.inr rfl) hen

end Sys2Proof.Machine
end

section
/-! PROOFS. The event word (spec/30_encoding.md R50 to R53, R65): the fields of a masked word, the fields as bits of EV, and what
the decoder and the encoder keep of a word. -/

namespace Sys2Proof

/-! ## The fields of a word -/

/-- A mask acts on each field of a word apart (R50). -/
theorem and_packEvent (w : EventWord) (ts : Timestamp) (arg : BitVec 4) (dir : BitVec 1) (op : BitVec 3) :
    w &&& packEvent ts arg dir op = packEvent (evTs w &&& ts) (evArg w &&& arg) (evDir w &&& dir) (evOp w &&& op) := by
  conv_lhs => rw [← packEvent_fields w]
  exact packEvent_and ..

/-- A mask that covers OP leaves OP to be read from what it matches. -/
theorem evOp_eq_of_and {w mask value : EventWord} (hmask : evOp mask = 7#3) (h : w &&& mask = value) :
    evOp w = evOp value := by
  have hand : evOp (w &&& mask) = evOp w &&& 7#3 := by rw [← hmask]; exact BitVec.extractLsb'_and
  rw [← h, hand]
  exact BitVec.and_allOnes.symm

/-- A mask that covers DIR leaves DIR to be read from what it matches. -/
theorem evDir_eq_of_and {w mask value : EventWord} (hmask : evDir mask = 1#1) (h : w &&& mask = value) :
    evDir w = evDir value := by
  have hand : evDir (w &&& mask) = evDir w &&& 1#1 := by rw [← hmask]; exact BitVec.extractLsb'_and
  rw [← h, hand]
  exact BitVec.and_allOnes.symm

theorem evTs_eq_ofNat (w : EventWord) : evTs w = BitVec.ofNat 32 (w.toNat / 2 ^ 8) := by
  rw [← Nat.shiftRight_eq_div_pow]; rfl

theorem evArg_eq_ofNat (w : EventWord) : evArg w = BitVec.ofNat 4 (w.toNat / 2 ^ 4) := by
  rw [← Nat.shiftRight_eq_div_pow]; rfl

theorem evArg0_eq_testBit (w : EventWord) : evArg0 w = w.toNat.testBit 4 := by
  simp [evArg0, evArg, BitVec.testBit_toNat]

/-- A one-bit argument is the argument with its upper bits cleared (R53). -/
theorem arg1_getLsbD (arg : BitVec 4) : arg1 (arg.getLsbD 0) = arg &&& 1#4 := by revert arg; decide

/-! ## Decoding what was encoded -/

/-- Settles O1: each field the decoder reads comes back from the packing (`decode_encode`). -/
theorem everyEventDecodesFromItsEncoding : Obligations.EveryEventDecodesFromItsEncoding := decode_encode

/-! ## Encoding what was decoded -/

/-- The masks of what R51 to R53 have an event read: OP alone, ARG[0], ARG, or DIR and TS with it. -/
theorem and_opMask (w : EventWord) : w &&& 0x0000000007#40 = packEvent 0#32 0#4 0#1 (evOp w) := by
  rw [show 0x0000000007#40 = packEvent 0#32 0#4 0#1 (BitVec.allOnes 3) by decide, and_packEvent]
  simp only [BitVec.and_zero, BitVec.and_allOnes]

theorem and_arg0Mask (w : EventWord) : w &&& 0x0000000017#40 = packEvent 0#32 (arg1 (evArg0 w)) 0#1 (evOp w) := by
  rw [show 0x0000000017#40 = packEvent 0#32 1#4 0#1 (BitVec.allOnes 3) by decide, and_packEvent, evArg0, arg1_getLsbD]
  simp only [BitVec.and_zero, BitVec.and_allOnes]

theorem and_argMask (w : EventWord) : w &&& 0x00000000F7#40 = packEvent 0#32 (evArg w) 0#1 (evOp w) := by
  rw [show 0x00000000F7#40 = packEvent 0#32 (BitVec.allOnes 4) 0#1 (BitVec.allOnes 3) by decide, and_packEvent]
  simp only [BitVec.and_zero, BitVec.and_allOnes]

theorem and_edgeMask (w : EventWord) : w &&& 0xFFFFFFFF0F#40 = packEvent (evTs w) 0#4 (evDir w) (evOp w) := by
  rw [show 0xFFFFFFFF0F#40 = packEvent (BitVec.allOnes 32) 0#4 (BitVec.allOnes 1) (BitVec.allOnes 3) by decide, and_packEvent]
  simp only [BitVec.and_zero, BitVec.and_allOnes]

/-- An edge keeps DIR and the whole TS. -/
theorem encode_decode_edge {w : EventWord} (h : evOp w = 1#3) :
    encode (decode w) = packEvent (evTs w) 0#4 (evDir w) 1#3 := by
  rw [decode_edge h]
  obtain hdir | hdir := BitVec.eq_zero_or_eq_one (evDir w) <;> rw [hdir] <;> rfl

/-- Settles O2: each OP's mask, taken field by field, leaves the fields its event is encoded from. -/
theorem reencodingClearsExactlyTheIgnoredBits : Obligations.ReencodingClearsExactlyTheIgnoredBits := by
  intro w
  obtain h | h | h | h | h | h | h | h := op_cases (evOp w) <;>
    simp only [h, BitVec.reduceEq, reduceIte, or_true, true_or, or_self]
  · rw [decode_nop h, and_opMask, h]; rfl
  · rw [encode_decode_edge h, and_edgeMask, h]
  · rw [decode_timeout h, and_argMask, h]; rfl
  · rw [decode_enable h, and_arg0Mask, h]; rfl
  · rw [decode_setErr h, and_arg0Mask, h]; rfl
  · rw [decode_close h, and_opMask, h]; rfl
  · rw [decode_rsvd6 h, and_opMask, h]; rfl
  · rw [decode_rsvd7 h, and_opMask, h]; rfl

/-! ## Decoding by the opcode map -/

theorem decode_edgeRise {w : EventWord} (h : evOp w = 1#3) (hdir : evDir w = 0#1) : decode w = .edgeRise (evTs w) := by
  rw [decode_edge h, if_pos hdir]

theorem decode_edgeFall {w : EventWord} (h : evOp w = 1#3) (hdir : evDir w = 1#1) : decode w = .edgeFall (evTs w) := by
  rw [decode_edge h, if_neg (by rw [hdir]; decide)]

/-- Settles O3: the mask of each row covers OP, and DIR for the edges, so the match fixes them; the operands are fields of EV. -/
theorem opcodeMapSelectsTheEvent : Obligations.OpcodeMapSelectsTheEvent := by
  intro w
  have op {value : EventWord} (h : w &&& 0x7#40 = value) : evOp w = evOp value := evOp_eq_of_and (by decide) h
  have edgeOp {value : EventWord} (h : w &&& 0xF#40 = value) : evOp w = evOp value := evOp_eq_of_and (by decide) h
  have edgeDir {value : EventWord} (h : w &&& 0xF#40 = value) : evDir w = evDir value := evDir_eq_of_and (by decide) h
  rw [← evTs_eq_ofNat, ← evArg_eq_ofNat, ← evArg0_eq_testBit]
  exact ⟨fun h => decode_nop (op h), fun h => decode_edgeRise (edgeOp h) (edgeDir h),
    fun h => decode_edgeFall (edgeOp h) (edgeDir h), fun h => decode_timeout (op h), fun h => decode_enable (op h),
    fun h => decode_setErr (op h), fun h => decode_close (op h), fun h => decode_rsvd6 (op h), fun h => decode_rsvd7 (op h)⟩

/-- Settles O5: twelve closed words. -/
theorem sampleWordsDecode : Obligations.SampleWordsDecode := by
  unfold Obligations.SampleWordsDecode; decide

end Sys2Proof
end

section
/-! PROOFS. The bits of an event word that no step reads (spec/30_encoding.md R54, R55), and the words of a trace line
(R57, R58). -/

namespace Sys2Proof.Machine

/-! ## The bits a step does not read -/

/-- Of an edge's timestamp the prologue reads its time, the low TS_WIDTH bits (R54, R81). -/
theorem edgeLocals_congr {s : State} {ts ts' : Timestamp} (h : s.timeOf ts = s.timeOf ts') :
    edgeLocals ts s = edgeLocals ts' s := by
  have hd : interval ts s = interval ts' s := congrArg (sdiffW s.cfg.tsWidth · s.regs.tLast) h
  simp only [edgeLocals, hd]

theorem recordEdge_congr {s : State} {ts ts' : Timestamp} (dir : Dir) (h : s.timeOf ts = s.timeOf ts') :
    recordEdge dir ts s = recordEdge dir ts' s :=
  congrArg (fun t => { s with regs := s.regs.edged dir t }) h

theorem exec_edgeRise_congr {s : State} {ts ts' : Timestamp} (h : s.timeOf ts = s.timeOf ts') :
    exec (.edgeRise ts) s = exec (.edgeRise ts') s := by
  rw [exec, exec]
  cases hen : s.regs.en
  · rw [execEdgeRise_unbound ts s hen, execEdgeRise_unbound ts' s hen]
  · rw [execEdgeRise_bound ts s hen, execEdgeRise_bound ts' s hen, edgeLocals_congr h, recordEdge_congr (s := s.quiet) _ h]

theorem exec_edgeFall_congr {s : State} {ts ts' : Timestamp} (h : s.timeOf ts = s.timeOf ts') :
    exec (.edgeFall ts) s = exec (.edgeFall ts') s := by
  rw [exec, exec]
  cases hen : s.regs.en
  · rw [execEdgeFall_unbound ts s hen, execEdgeFall_unbound ts' s hen]
  · rw [execEdgeFall_bound ts s hen, execEdgeFall_bound ts' s hen, edgeLocals_congr h, recordEdge_congr (s := s.quiet) _ h]

/-- Words that agree on what R51 to R54 read for their OP run alike: their events are equal, or edges with the same time. -/
theorem exec_decode_congr {s : State} {v w : EventWord} (hop : evOp v = evOp w)
    (hedge : evOp w = 1#3 → evDir v = evDir w ∧ s.timeOf (evTs v) = s.timeOf (evTs w))
    (htimeout : evOp w = 2#3 → evArg v = evArg w) (harg : evOp w = 3#3 ∨ evOp w = 4#3 → evArg0 v = evArg0 w) :
    exec (decode v) s = exec (decode w) s := by
  obtain h | h | h | h | h | h | h | h := op_cases (evOp w) <;> have hv := hop.trans h
  · rw [decode_nop hv, decode_nop h]
  · obtain ⟨hdir, htime⟩ := hedge h
    rw [decode_edge hv, decode_edge h, hdir]
    split
    · exact exec_edgeRise_congr htime
    · exact exec_edgeFall_congr htime
  · rw [decode_timeout hv, decode_timeout h, htimeout h]
  · rw [decode_enable hv, decode_enable h, harg (.inl h)]
  · rw [decode_setErr hv, decode_setErr h, harg (.inr h)]
  · rw [decode_close hv, decode_close h]
  · rw [decode_rsvd6 hv, decode_rsvd6 h]
  · rw [decode_rsvd7 hv, decode_rsvd7 h]

/-! ## The words of a trace line -/

/-- An assembler writes nothing but encodings of events. -/
theorem exists_encode_of_assemble {l : TraceLine} {ws : List EventWord} {w : EventWord} (h : assemble l = some ws)
    (hw : w ∈ ws) : ∃ i, encode i = w := by
  rw [assemble] at h
  split at h <;> cases h
  obtain ⟨i, -, hi⟩ := List.mem_map.1 hw
  exact ⟨i, hi⟩

/-- Settles O4: an edge's time is TS modulo 2^TS_WIDTH, so the words run alike (`exec_decode_congr`); and what an assembler
writes is an encoding, which is its own re-encoding. -/
theorem ignoredBitsNeverMatter : Obligations.IgnoredBitsNeverMatter := by
  refine ⟨fun s v w hop hedge htimeout harg => ?_, fun l ws w hl hw => ?_⟩
  · rw [step_present_event, step_present_event]
    exact exec_decode_congr hop (fun h => (hedge h).imp_right (congrArg (BitVec.ofNat 32))) htimeout harg
  · obtain ⟨i, rfl⟩ := exists_encode_of_assemble hl hw
    rw [decode_encode]

/-- A line of one event is written, or refused when its operand is out of range (R57). -/
theorem assemble_of_single {l : TraceLine} {i : Instr} {p : Prop} [Decidable p] (hp : l.wellFormed = decide p)
    (hi : lineEvents l = [i]) : assemble l = if p then some [encode i] else none := by
  simp only [assemble, hp, hi, decide_eq_true_eq, List.map_cons, List.map_nil]

/-- A one-bit operand is in range when it is 0 or 1. -/
theorem ite_le_one {α : Type} (n : Nat) (f : Bool → α) :
    (if n ≤ 1 then some (f (n == 1)) else none) = if n = 0 then some (f false) else if n = 1 then some (f true) else none := by
  obtain rfl | rfl | h : n = 0 ∨ n = 1 ∨ 2 ≤ n := by omega
  · rfl
  · rfl
  · rw [if_neg (by omega), if_neg (by omega), if_neg (by omega)]

/-- Settles O7: every line in it has one event, so its range check decides (`assemble_of_single`). -/
theorem traceSyntaxEncodesAndRefuses : Obligations.TraceSyntaxEncodesAndRefuses := by
  refine ⟨fun n => ⟨assemble_of_single rfl rfl, assemble_of_single rfl rfl, assemble_of_single rfl rfl, ?enable, ?setErr⟩,
    ?nop, ?close, rfl, rfl, rfl, rfl, rfl, rfl⟩
  case enable => exact (assemble_of_single rfl rfl).trans (ite_le_one n fun b => [encode (.enable b)])
  case setErr => exact (assemble_of_single rfl rfl).trans (ite_le_one n fun b => [encode (.setErr b)])
  case nop => decide
  case close => decide

end Sys2Proof.Machine
end

section
/-! PROOFS. The result word and the output record (spec/30_encoding.md R60 to R62, R64), row by row of `Effect`. -/

namespace Sys2Proof.Machine

/-! ## What a driven result word holds -/

/-- The high and the low address byte are the low half of RAW (R103). -/
theorem byteA1_append_byteA0 (raw : BitVec 32) : byteA1 raw ++ byteA0 raw = raw.extractLsb' 0 16 := by
  apply BitVec.eq_of_getLsbD_eq; intro i hi
  simp only [byteA0, byteA1, BitVec.getLsbD_append, BitVec.getLsbD_extractLsb', hi, Nat.zero_add]
  by_cases h : i < 8
  · simp [h]
  · simp [h, show i - 8 < 8 by omega, show 8 + (i - 8) = i by omega]

/-- What Validate accepts, Extract reads (R102, R106): the command is complementary, and the address has one of the two forms. -/
theorem extract_eq_ok {raw : BitVec 32} {ext : Bool} {a : BitVec 16} {x : Bool} (hc : byteC0 raw = ~~~(byteC1 raw))
    (ha : (byteA0 raw = ~~~(byteA1 raw) ∧ a = (byteA0 raw).setWidth 16 ∧ x = false) ∨
      (byteA0 raw ≠ ~~~(byteA1 raw) ∧ ext = true ∧ a = byteA1 raw ++ byteA0 raw ∧ x = true)) :
    extract raw ext = .ok (byteC0 raw) a x := by
  rw [extract, sub_eq_not, sub_eq_not, if_neg (not_not.2 hc)]
  obtain ⟨hstd, rfl, rfl⟩ | ⟨hstd, rfl, rfl, rfl⟩ := ha
  · rw [if_pos hstd]
  · rw [if_neg hstd, if_pos rfl, byteA1_append_byteA0]

/-- Where the fields of a result word come from: the frame that just ended, or the history (R61, R85, R104). -/
inductive ResultSource (r : Regs) : BitVec 27 → Prop
  | fresh (cmd : Byte) (addr : BitVec 16) (xa : Bool) (hst : r.st = .asStop) (hx : extract r.raw r.ext = .ok cmd addr xa)
      (haddr : xa = false → addr.extractLsb' 8 8 = 0#8) : ResultSource r (packDec cmd addr false true xa)
  | again (hst : r.st = .als) : ResultSource r (packDec r.lastCmd r.lastAddr true r.histValid r.lastXa)

/-- DEC goes out at the end of a frame and at a repeat space, and nowhere else. -/
theorem Effect.resultSource {s : State} {i : Instr} {r : Regs} {o : Output} (he : Effect s i r o) (hdec : o.decV = true) :
    ResultSource s.regs o.decWord := by
  cases he with
  | again ts _ hst => exact .again hst
  | frame ts a x _ hst _ _ hc ha =>
    refine .fresh _ a x hst (extract_eq_ok hc ha) fun hx => ?_
    obtain ⟨-, rfl, -⟩ | ⟨-, -, -, rfl⟩ := ha
    · exact extractLsb'_high_setWidth _
    · cases hx
  | expire => rw [timeoutRecord_decV] at hdec; cases hdec
  | riseError | fallError => rw [errorRecord_decV] at hdec; cases hdec
  | _ => cases hdec

/-- Settles O35: the fields are read back by the laws of `packDec`; a result word comes from the frame or from the history
(`Effect.resultSource`), and the history of an invariant state is empty or a frame's. -/
theorem resultWordLayout : Obligations.ResultWordLayout := by
  refine ⟨fun _ _ _ _ _ => ⟨packDec_cmd .., packDec_addr .., packDec_repeat .., packDec_valid .., packDec_xaddr ..⟩,
    fun i s t hs h hdec => ?_⟩
  obtain ⟨r, o, he, rfl⟩ := exec_cases h
  obtain ⟨-, hregs, -⟩ := hs
  obtain ⟨-, -, hempty, hhigh⟩ := (Regs.inv_iff _).1 hregs
  rw [State.answer_out] at hdec ⊢
  generalize o.decWord = word, he.resultSource hdec = hsource
  cases hsource with
  | fresh cmd addr xa hst hx haddr =>
    exact ⟨cmd, addr, false, true, xa, rfl, fun _ => ⟨hst, rfl, hx⟩, nofun, nofun, haddr⟩
  | again hst =>
    refine ⟨_, _, true, _, _, rfl, nofun, fun _ => ⟨hst, rfl, rfl, rfl, rfl⟩, fun hv => ?_, hhigh⟩
    obtain ⟨hcmd, haddr, -⟩ := hempty hv
    exact ⟨rfl, hv, hcmd, haddr⟩

/-! ## Every record is legal -/

theorem Output.legal_idle : Output.idle.Legal := by decide

theorem Output.legal_bindFail : Output.Legal { Output.idle with bindFail := true } := by decide

theorem restartRecord_legal (g : Tag) : (restartRecord g).Legal :=
  ⟨fun _ => rfl, fun _ => rfl, nofun, nofun, nofun, nofun, nofun⟩

theorem cancelRecord_legal (g : Tag) : (cancelRecord g).Legal :=
  ⟨fun _ => rfl, fun _ => rfl, nofun, nofun, nofun, nofun, nofun⟩

theorem decRecord_legal (w : BitVec 27) (g : Tag) : (decRecord w g).Legal :=
  ⟨nofun, fun _ => rfl, nofun, nofun, nofun, nofun, nofun⟩

/-- Codes 0 and 7 have no name (R62, R130). -/
theorem ErrorCode.code_legal (e : ErrorCode) : e.code ≠ 0#3 ∧ e.code ≠ 7#3 := by cases e <;> decide

theorem errorRecord_legal (b : Bool) (e : ErrorCode) (g : Tag) : (errorRecord b e.code g).Legal := by
  cases b with
  | false => exact cancelRecord_legal g
  | true => exact ⟨fun _ => rfl, nofun, fun _ => e.code_legal, nofun, nofun, nofun, nofun⟩

theorem timeoutRecord_legal (b : Bool) : (timeoutRecord b).Legal := by revert b; decide

theorem Effect.out_legal {s : State} {i : Instr} {r : Regs} {o : Output} (he : Effect s i r o) : o.Legal := by
  cases he with
  | nop | rsvd6 | rsvd7 | unbound | bind | setErr | closeIdle | stale | idleRise | noise => exact Output.legal_idle
  | bindFail => exact Output.legal_bindFail
  | closeArmed => exact cancelRecord_legal _
  | expire => exact timeoutRecord_legal _
  | leader | start | pulse | bit => exact restartRecord_legal _
  | again | frame => exact decRecord_legal _ _
  | riseError | fallError => exact errorRecord_legal ..

theorem exec_out_legal {i : Instr} {s t : State} (h : exec i s = .next t) : t.out.Legal := by
  obtain ⟨r, o, he, rfl⟩ := exec_cases h
  exact he.out_legal

/-- Settles O36: the record of each row of `Effect` is legal, and RST and an idle bus drive the idle record. -/
theorem outputRecordsAreLegal : Obligations.OutputRecordsAreLegal := by
  refine ⟨fun i s t h => exec_out_legal h, fun s t h => ?_⟩
  obtain ⟨w, rest, -, hexec⟩ | ⟨rest, -, rfl⟩ | ⟨-, rfl⟩ := step_cases h
  · exact exec_out_legal hexec
  · exact Output.legal_idle
  · exact Output.legal_idle

end Sys2Proof.Machine
end

section
/-! PROOFS. The pseudo-instruction NEC.FRAME (spec/30_encoding.md R59): its edges, the intervals between them, and the word it
carries. -/

namespace Sys2Proof.Machine

/-- Pulse and space of a data bit as NEC.FRAME sends it. -/
def nominalBit (b : Bool) : Nat × Nat := (563, if b then 1687 else 562)

/-- The transmission NEC.FRAME writes. -/
def nominalFrame (t0 : Nat) (raw : BitVec 32) : FrameTiming := ⟨t0, 9000, 4500, (sentBits raw).map nominalBit, 563⟩

theorem length_sentBits (raw : BitVec 32) : (sentBits raw).length = 32 := by simp [sentBits]

/-! ## The edges -/

theorem length_bitEdges (bs : List Bool) : ∀ t, (bitEdges t bs).length = 2 * bs.length + 1 := by
  induction bs with
  | nil => intro t; rfl
  | cons b bs ih => intro t; simp only [bitEdges, List.length_cons, ih]; omega

theorem ofNat_mod_eq_stamp (time : Nat) : BitVec.ofNat 32 (time % 2 ^ 32) = stamp time :=
  BitVec.eq_of_toNat_eq (Nat.mod_mod time (2 ^ 32))

/-- With 32-bit timestamps an edge carries the stamp of its time. -/
theorem edgeEvent_rising (time : Nat) : edgeEvent 32 .rising time = .edgeRise (stamp time) :=
  congrArg Instr.edgeRise (ofNat_mod_eq_stamp time)

theorem edgeEvent_falling (time : Nat) : edgeEvent 32 .falling time = .edgeFall (stamp time) :=
  congrArg Instr.edgeFall (ofNat_mod_eq_stamp time)

theorem bitEdges_eq_map_bitTimes (bs : List Bool) :
    ∀ t, bitEdges t bs = (bitTimes 563 t (bs.map nominalBit)).map fun e => edgeEvent 32 e.1 e.2 := by
  induction bs with
  | nil => intro t; simp only [bitEdges, bitTimes, List.map_cons, List.map_nil, edgeEvent_falling]
  | cons b bs ih =>
    intro t
    simp only [bitEdges, List.map_cons, nominalBit, bitTimes, edgeEvent_falling, edgeEvent_rising, ih]

theorem length_frameEvents (t0 : Nat) (raw : BitVec 32) : (frameEvents t0 raw).length = 68 := by
  simp only [frameEvents, List.length_cons, length_bitEdges, length_sentBits]

theorem frameEvents_eq_map_edges (t0 : Nat) (raw : BitVec 32) :
    frameEvents t0 raw = (nominalFrame t0 raw).edges.map fun e => edgeEvent 32 e.1 e.2 := by
  simp only [frameEvents, nominalFrame, FrameTiming.edges, List.map_cons, edgeEvent_rising, edgeEvent_falling,
    bitEdges_eq_map_bitTimes]

/-! ## The intervals and the word -/

theorem nominalBit_inWindow (b : Bool) : (inWindow Windows.default.bp (nominalBit b).1 &&
    (inWindow Windows.default.b1 (nominalBit b).2 || inWindow Windows.default.b0 (nominalBit b).2)) = true := by
  revert b; decide

/-- A 1 is sent as a long space, and a 0 is not (R43). -/
theorem nominalBit_long (b : Bool) : inWindow Windows.default.b1 (nominalBit b).2 = b := by revert b; decide

theorem nominalFrame_wellTimed (t0 : Nat) (raw : BitVec 32) : (nominalFrame t0 raw).wellTimed Windows.default = true := by
  have hbits : ((sentBits raw).map nominalBit).all (fun b => inWindow Windows.default.bp b.1 &&
      (inWindow Windows.default.b1 b.2 || inWindow Windows.default.b0 b.2)) = true := by
    rw [List.all_map]
    exact List.all_eq_true.2 fun b _ => nominalBit_inWindow b
  rw [FrameTiming.wellTimed, nominalFrame, hbits, List.length_map, length_sentBits]
  rfl

/-- The lowest n bits of a number, sent the lowest first, are received as that number modulo 2^n (R24, R43). -/
theorem sentWord_nominal (n : Nat) : ∀ x : Nat,
    sentWord Windows.default (((List.range n).map x.testBit).map nominalBit) = x % 2 ^ n := by
  induction n with
  | zero => intro x; exact (Nat.mod_one x).symm
  | succ n ih =>
    intro x
    have htail : (List.range n).map (x.testBit ∘ Nat.succ) = (List.range n).map (x / 2).testBit := by
      simp only [Function.comp_def, Nat.testBit_succ]
    have hhead : (if x.testBit 0 = true then 1 else 0) = x % 2 := by
      rw [Nat.testBit_zero]
      obtain h | h := Nat.mod_two_eq_zero_or_one x <;> rw [h] <;> rfl
    rw [List.range_succ_eq_map, List.map_cons, List.map_map, htail, List.map_cons, sentWord, ih, nominalBit_long, hhead,
      pow_succ', Nat.mod_mul]

theorem nominalFrame_raw (t0 : Nat) (raw : BitVec 32) : (nominalFrame t0 raw).raw Windows.default = raw := by
  have hword : sentWord Windows.default (nominalFrame t0 raw).bits = raw.toNat % 2 ^ 32 := sentWord_nominal 32 raw.toNat
  rw [FrameTiming.raw, hword, Nat.mod_eq_of_lt raw.isLt, BitVec.ofNat_toNat, BitVec.setWidth_eq]

/-- Settles O55: the edges of NEC.FRAME are those of the nominal transmission, whose intervals and word are checked bit by bit. -/
theorem nominalFrameIsWellTimed : Obligations.NominalFrameIsWellTimed := by
  intro t0 raw
  exact ⟨length_frameEvents t0 raw, frameEvents_eq_map_edges t0 raw, nominalFrame_wellTimed t0 raw, nominalFrame_raw t0 raw⟩

end Sys2Proof.Machine
end

section
/-! PROOFS. The interval of an edge and the timing classifier (spec/40_classifier.md R70 to R74). sdiff_W is the library's balanced
remainder `Int.bmod` at 2^W, so its range and its congruence fix its value; a category is taken through its window. -/

namespace Sys2Proof

/-- R7: under legal parameters every category's window is legal. -/
theorem Params.Legal.window {p : Params} (hp : p.Legal) (k : Category) : (p.windows.get k).Legal p.tsWidth := by
  obtain ⟨-, ⟨hlp, hls, hrs, hbp, hb0, hb1⟩, -, -⟩ := hp
  cases k with
  | lp => exact hlp
  | ls => exact hls
  | rs => exact hrs
  | bp => exact hbp
  | b0 => exact hb0
  | b1 => exact hb1

end Sys2Proof

namespace Sys2Proof.Machine

/-! ## The interval -/

theorem sdiffW_eq_bmod {W : Nat} (hW : 1 ≤ W) (t u : Timestamp) :
    sdiffW W t u = ((t.toNat : Int) - u.toNat).bmod (2 ^ W) := by
  have hhalf : (((2 ^ W : Nat) : Int) + 1) / 2 = (2 ^ (W - 1) : Nat) := by
    have := Nat.two_pow_pred_mul_two hW
    omega
  rw [Int.bmod_def, hhalf, sdiffW]
  split
  · next h => exact (if_neg h.not_gt).symm
  · next h => exact (if_pos (not_le.1 h)).symm

/-- R70: the range and the congruence modulo 2^W determine sdiff_W. -/
theorem sdiffW_eq_iff {W : Nat} (hW : 1 ≤ W) (t u : Timestamp) (d : Int) :
    sdiffW W t u = d ↔
      -(2 ^ (W - 1) : Int) ≤ d ∧ d ≤ 2 ^ (W - 1) - 1 ∧ (2 : Int) ^ W ∣ (t.toNat : Int) - u.toNat - d := by
  have hdouble : ((2 ^ W : Nat) : Int) = 2 ^ (W - 1) * 2 := by exact_mod_cast (Nat.two_pow_pred_mul_two hW).symm
  have hlow : ((2 ^ W : Nat) : Int) / 2 = 2 ^ (W - 1) := by omega
  have hhigh : (((2 ^ W : Nat) : Int) + 1) / 2 = 2 ^ (W - 1) := by omega
  rw [sdiffW_eq_bmod hW, Int.bmod_eq_iff (Nat.two_pow_pos W), hlow, hhigh, dvd_sub_comm, Nat.cast_pow, Nat.cast_ofNat,
    Int.le_sub_one_iff]

/-- R70: a t that is k µs earlier than u, k up to half the modulus, gives -k. -/
theorem sdiffW_eq_neg_of_earlier {W : Nat} {t u : Timestamp} {k : Nat} (hW : 1 ≤ W) (hk : k ≤ 2 ^ (W - 1))
    (hpos : 1 ≤ k) (h : (t.toNat + k) % 2 ^ W = u.toNat % 2 ^ W) : sdiffW W t u = -(k : Int) := by
  have hk' : (k : Int) ≤ 2 ^ (W - 1) := by exact_mod_cast hk
  have hdvd : (2 : Int) ^ W ∣ ((t.toNat + k : Nat) : Int) - u.toNat := by
    exact_mod_cast Nat.modEq_iff_dvd.1 (show u.toNat ≡ t.toNat + k [MOD 2 ^ W] from h.symm)
  refine (sdiffW_eq_iff hW t u _).2 ⟨by omega, by omega, ?_⟩
  rwa [Nat.cast_add, add_sub_right_comm, ← sub_neg_eq_add] at hdvd

/-! ## The match vector -/

/-- R72: the bit of a category says that the interval lies in the category's window. -/
theorem classify_get_iff (w : Windows) (k : Category) (d : Int) :
    (classify w d).get k = true ↔ ((w.get k).lo : Int) ≤ d ∧ d ≤ ((w.get k).hi : Int) := by
  rw [classify_get, inWindow_iff]

/-- R72: a legal window starts at 1 or later, so it holds no interval that is zero or negative. -/
theorem classify_get_of_nonpos {p : Params} (hp : p.Legal) (k : Category) {d : Int} (hd : d ≤ 0) :
    (classify p.windows d).get k = false := by
  obtain ⟨hlo, -, -⟩ := hp.window k
  rw [Bool.eq_false_iff, ne_eq, classify_get_iff]
  omega

theorem not_inWindow_both {a b : Window} (h : a.Disjoint b) (d : Int) :
    ¬ (inWindow a d = true ∧ inWindow b d = true) := by
  rw [inWindow_iff, inWindow_iff]
  rintro ⟨⟨halo, hahi⟩, hblo, hbhi⟩
  obtain h | h := h <;> omega

/-! ## The default table -/

/-- R71: the default bounds are 3/8 and 5/8 of the nominal value in half-microseconds, the lower one rounded up and the upper one
rounded down. -/
theorem default_bounds (k : Category) : (Windows.default.get k).lo = (3 * k.nominalHalfUs + 7) / 8 ∧
    (Windows.default.get k).hi = 5 * k.nominalHalfUs / 8 := by
  cases k <;> decide

/-! ## The obligations -/

/-- Settles O26: sdiff_W by its range and its congruence, and no legal window reaches below 1. -/
theorem sdiffIsTheSignedModularDifference : Obligations.SdiffIsTheSignedModularDifference := by
  refine ⟨fun _ _ => rfl, fun W t u hW => (sdiffW_eq_iff hW t u _).1 rfl, by decide, ?earlier, ?negative⟩
  case earlier => exact fun _ _ _ _ hW hk h hpos => sdiffW_eq_neg_of_earlier hW hk hpos h
  case negative => exact fun _ k _ hp hd => classify_get_of_nonpos hp k hd.le

/-- Settles O27: a bound rounded inward admits the same integers as the bound itself. -/
theorem defaultWindowsAreQuarterTolerance : Obligations.DefaultWindowsAreQuarterTolerance := by
  refine ⟨fun k d => ?_, rfl⟩
  obtain ⟨hlo, hhi⟩ := default_bounds k
  rw [classify_get_iff, hlo, hhi]
  omega

/-- Settles O28: the bit of each category, and the lower bound of a legal window. -/
theorem classifyTestsEachWindow : Obligations.ClassifyTestsEachWindow :=
  ⟨classify_get_iff, fun _ k _ hp hd => classify_get_of_nonpos hp k hd⟩

/-- Settles O29: disjoint windows share no interval; in the default table RS and B1 overlap, and BP and B0 are one window. -/
theorem pairsReadTogetherAreDisjoint : Obligations.PairsReadTogetherAreDisjoint := by
  refine ⟨fun p d hp => ?pairs, Params.default_legal, fun d => ⟨?overlap, rfl⟩⟩
  case pairs =>
    obtain ⟨-, -, ⟨hleader, hspace, hbit⟩, -⟩ := hp
    exact ⟨not_inWindow_both hleader d, not_inWindow_both hspace d, not_inWindow_both hbit.symm d⟩
  case overlap =>
    have hrs : (classify Windows.default d).rs = true ↔ 1688 ≤ d ∧ d ≤ 2812 := classify_get_iff Windows.default .rs d
    have hb1 : (classify Windows.default d).b1 = true ↔ 1266 ≤ d ∧ d ≤ 2109 := classify_get_iff Windows.default .b1 d
    rw [hrs, hb1]
    omega

end Sys2Proof.Machine
end

section
/-! PROOFS. The edges of the frame state machine (spec/41_frame_fsm.md R82 to R93): each row of `Effect` is what exec does, so a
statement about one edge is one row. -/

namespace Sys2Proof.Machine

/-! ## The rows of `Effect` are met

`exec_effect` says that nothing but a row happens; here, that a row whose guard holds does happen. -/

@[simp] theorem edgeLocals_haveLast (ts : Timestamp) (s : State) : (edgeLocals ts s).haveLast = s.regs.haveLast := rfl
@[simp] theorem edgeLocals_prev (ts : Timestamp) (s : State) : (edgeLocals ts s).prev = s.regs.lastDir := rfl
@[simp] theorem edgeLocals_lp (ts : Timestamp) (s : State) : (edgeLocals ts s).m.lp = s.hits .lp ts := rfl
@[simp] theorem edgeLocals_ls (ts : Timestamp) (s : State) : (edgeLocals ts s).m.ls = s.hits .ls ts := rfl
@[simp] theorem edgeLocals_rs (ts : Timestamp) (s : State) : (edgeLocals ts s).m.rs = s.hits .rs ts := rfl
@[simp] theorem edgeLocals_bp (ts : Timestamp) (s : State) : (edgeLocals ts s).m.bp = s.hits .bp ts := rfl
@[simp] theorem edgeLocals_b0 (ts : Timestamp) (s : State) : (edgeLocals ts s).m.b0 = s.hits .b0 ts := rfl
@[simp] theorem edgeLocals_b1 (ts : Timestamp) (s : State) : (edgeLocals ts s).m.b1 = s.hits .b1 ts := rfl

theorem RiseError.riseByState_eq {s : State} {ts : Timestamp} {e : ErrorCode} (h : RiseError s ts e) :
    riseByState (edgeLocals ts s) (recordEdge .rising ts s.quiet) = raiseError e (recordEdge .rising ts s.quiet) := by
  cases h with
  | space hst h1 h2 => simp [riseByState, alsRise, hst, h1, h2]
  | twice hst hd => simp [riseByState, rbRise, hst, hd]
  | bit hst h1 h2 => simp [riseByState, rbRise, hst, h1, h2]
  | stop hst => simp [riseByState, asRise, hst]

theorem validate_eq_raiseError {s : State} (h : byteC0 s.regs.raw ≠ ~~~(byteC1 s.regs.raw) ∨
    s.regs.ext = false ∧ byteA0 s.regs.raw ≠ ~~~(byteA1 s.regs.raw)) : validate s = raiseError .checksumMismatch s := by
  unfold validate
  obtain hc | ⟨hext, ha⟩ := h
  · simp [hc]
  · simp [hext, ha]

theorem validate_eq_deliver {s : State} {a : BitVec 16} {x : Bool} (hc : byteC0 s.regs.raw = ~~~(byteC1 s.regs.raw))
    (ha : (byteA0 s.regs.raw = ~~~(byteA1 s.regs.raw) ∧ a = (byteA0 s.regs.raw).setWidth 16 ∧ x = false) ∨
      (byteA0 s.regs.raw ≠ ~~~(byteA1 s.regs.raw) ∧ s.regs.ext = true ∧ a = byteA1 s.regs.raw ++ byteA0 s.regs.raw ∧
        x = true)) : validate s = deliver (byteC0 s.regs.raw) a x s := by
  unfold validate
  obtain ⟨ha, rfl, rfl⟩ | ⟨ha, hext, rfl, rfl⟩ := ha
  · simp only [ne_eq, hc, not_true_eq_false, if_false, ha, if_true]
  · simp only [ne_eq, hc, not_true_eq_false, if_false, ha, hext, if_true]

theorem FallError.fallByState_eq {s : State} {ts : Timestamp} {e : ErrorCode} (h : FallError s ts e) :
    fallByState (edgeLocals ts s) (recordEdge .falling ts s.quiet) = raiseError e (recordEdge .falling ts s.quiet) := by
  cases h with
  | leader hst => simp [fallByState, alsFall, hst]
  | twice hst hd => simp [fallByState, rbFall, hst, hd]
  | overrunBit hst hd h => simp [fallByState, rbFall, hst, hd, h]
  | bit hst hd h1 h2 => simp [fallByState, rbFall, hst, hd, h1, h2]
  | overrunStop hst h => simp [fallByState, asFall, hst, h]
  | stop hst h1 h2 => simp [fallByState, asFall, hst, h1, h2]
  | checksum hst h1 h2 hc =>
    rw [← validate_eq_raiseError (s := recordEdge .falling ts s.quiet) hc]
    simp [fallByState, asFall, hst, h1, h2]

theorem exec_edgeRise_of_riseByState {s t : State} {ts : Timestamp} (hen : s.regs.en = true)
    (h : riseByState (edgeLocals ts s) (recordEdge .rising ts s.quiet) = t) : exec (.edgeRise ts) s = .next t := by
  rw [exec, execEdgeRise_bound ts s hen, h]

theorem exec_edgeFall_of_fallByState {s t : State} {ts : Timestamp} (hen : s.regs.en = true)
    (h : fallByState (edgeLocals ts s) (recordEdge .falling ts s.quiet) = t) : exec (.edgeFall ts) s = .next t := by
  rw [exec, execEdgeFall_bound ts s hen, h]

/-- R91 in one record: the bit is stored, and the 32nd one ends the data. -/
theorem bitDone_storeBit_answer {s : State} (ts : Timestamp) (b : Bool) (hst : s.regs.st = .rb) :
    bitDone (storeBit b (recordEdge .rising ts s.quiet)) =
      s.answer
        { s.regs.edged .rising (s.timeOf ts) with
          st := if (s.regs.bitcnt + 1#6).toNat = frameBits then .asStop else .rb
          bitcnt := s.regs.bitcnt + 1#6
          raw := setBit s.regs.raw s.regs.bitcnt.toNat b
          tmoTag := s.regs.tmoTag + 1#4 }
        (restartRecord (s.regs.tmoTag + 1#4)) := by
  refine State.eq_of_fields (bitDone_cfg _) ?_ (bitDone_out _) (bitDone_port _)
  rw [bitDone_regs]
  simp [hst, Regs.edged, State.timeOf]

/-- The converse of `exec_cases`: a row whose guard holds is what the event does. -/
theorem Effect.exec_eq {s : State} {i : Instr} {r : Regs} {o : Output} (he : Effect s i r o) :
    exec i s = .next (s.answer r o) := by
  cases he with
  | nop | rsvd6 | rsvd7 => rfl
  | unbound i hen hi =>
    cases i with
    | nop | rsvd6 | rsvd7 => rfl
    | edgeRise ts => exact execEdgeRise_unbound ts s hen
    | edgeFall ts => exact execEdgeFall_unbound ts s hen
    | timeout g => exact execTimeout_unbound g s hen
    | enable x => exact absurd rfl (hi x)
    | setErr e => exact execSetErr_unbound e s hen
    | close => exact execClose_unbound s hen
  | bind x hen => exact execEnable_unbound x s hen
  | bindFail x hen => exact execEnable_bound x s hen
  | setErr e hen => exact execSetErr_bound e s hen
  | closeArmed hen hst => exact (execClose_bound s hen).trans (congrArg _ (if_pos hst))
  | closeIdle hen hst => exact (execClose_bound s hen).trans (congrArg _ (if_neg (not_not.2 hst)))
  | stale g hen h => exact (execTimeout_bound g s hen).trans (congrArg _ (timeoutBound_stale g s.quiet h))
  | expire hen hst =>
    refine (execTimeout_bound _ s hen).trans (congrArg _ ((timeoutBound_current s.quiet hst).trans ?_))
    cases herr : s.regs.errEn <;>
      exact State.eq_of_fields (by simp) (by simp [Regs.dropped]) (by simp [herr, timeoutRecord, ErrorCode.code]) (by simp)
  | idleRise ts hen hst =>
    exact exec_edgeRise_of_riseByState hen
      (show _ = recordEdge .rising ts s.quiet by simp [riseByState, hst, Machine.idleRise])
  | start ts hen hst h =>
    exact exec_edgeRise_of_riseByState hen
      (show _ = startFrame (recordEdge .rising ts s.quiet) by simp [riseByState, alsRise, hst, h])
  | again ts hen hst h1 h2 =>
    exact exec_edgeRise_of_riseByState hen
      (show _ = deliverRepeat (recordEdge .rising ts s.quiet) by simp [riseByState, alsRise, hst, h1, h2])
  | bit ts b hen hst hd hb =>
    refine exec_edgeRise_of_riseByState hen (Eq.trans ?_ (bitDone_storeBit_answer ts b hst))
    obtain ⟨rfl, h1⟩ | ⟨rfl, h1, h0⟩ := hb
    · simp [riseByState, rbRise, hst, hd, h1]
    · simp [riseByState, rbRise, hst, hd, h1, h0]
  | riseError ts e hen he => exact exec_edgeRise_of_riseByState hen (he.riseByState_eq.trans (raiseError_answer e _ rfl))
  | noise ts hen hst h =>
    refine exec_edgeFall_of_fallByState hen (show _ = recordEdge .falling ts s.quiet from ?_)
    obtain h | h | h := h <;> simp [fallByState, idleFall, hst, h]
  | leader ts hen hst hh hd h =>
    exact exec_edgeFall_of_fallByState hen
      (show _ = timerRestart ((recordEdge .falling ts s.quiet).clearBits.setSt .als) by
        simp [fallByState, idleFall, hst, hh, hd, h])
  | pulse ts hen hst hd h1 h2 =>
    exact exec_edgeFall_of_fallByState hen
      (show _ = timerRestart (recordEdge .falling ts s.quiet) by simp [fallByState, rbFall, hst, hd, h1, h2])
  | frame ts a x hen hst h1 h2 hc ha =>
    refine exec_edgeFall_of_fallByState hen (Eq.trans ?_ (validate_eq_deliver (s := recordEdge .falling ts s.quiet) hc ha))
    simp [fallByState, asFall, hst, h1, h2]
  | fallError ts e hen he => exact exec_edgeFall_of_fallByState hen (he.fallByState_eq.trans (raiseError_answer e _ rfl))

/-! ## The bit a space stores, and the result of the extractor -/

/-- R100: a 0 stored above every bit received leaves RAW, since that bit is 0 already (R33). -/
theorem setBit_false_of_lt {v : BitVec 32} {n : Nat} (hv : v.toNat < 2 ^ n) : setBit v n false = v := by
  apply BitVec.eq_of_getLsbD_eq
  intro j hj
  rw [setBit_getLsbD v n j false hj]
  split
  · next h => exact h ▸ (Nat.testBit_lt_two_pow hv).symm
  · rfl

theorem setBit_eq_of_lt {v : BitVec 32} {n : Nat} (b : Bool) (hv : v.toNat < 2 ^ n) :
    setBit v n b = if b then v ||| (1#32 <<< n) else v := by
  cases b with
  | false => exact setBit_false_of_lt hv
  | true => rfl

/-- The converse of `extract_eq_ok`: what Extract reads, Validate accepts (R102, R106). -/
theorem of_extract_eq_ok {raw : BitVec 32} {ext : Bool} {c : Byte} {a : BitVec 16} {x : Bool}
    (h : extract raw ext = .ok c a x) :
    c = byteC0 raw ∧ byteC0 raw = ~~~(byteC1 raw) ∧
      ((byteA0 raw = ~~~(byteA1 raw) ∧ a = (byteA0 raw).setWidth 16 ∧ x = false) ∨
        (byteA0 raw ≠ ~~~(byteA1 raw) ∧ ext = true ∧ a = byteA1 raw ++ byteA0 raw ∧ x = true)) := by
  rw [extract, sub_eq_not, sub_eq_not, ← byteA1_append_byteA0] at h
  split_ifs at h with hc ha hext
  · cases h; exact ⟨rfl, not_not.1 hc, .inl ⟨ha, rfl, rfl⟩⟩
  · cases h; exact ⟨rfl, not_not.1 hc, .inr ⟨ha, hext, rfl, rfl⟩⟩

/-- What Extract refuses, Validate refuses (R102, R106). -/
theorem of_extract_eq_fail {raw : BitVec 32} {ext : Bool} (h : extract raw ext = .fail) :
    byteC0 raw ≠ ~~~(byteC1 raw) ∨ ext = false ∧ byteA0 raw ≠ ~~~(byteA1 raw) := by
  rw [extract, sub_eq_not, sub_eq_not] at h
  split_ifs at h with hc ha hext
  · exact .inl hc
  · exact .inr ⟨Bool.eq_false_iff.2 hext, ha⟩

/-- R93 and R104: a stop pulse after a frame that Extract accepts. -/
theorem Effect.frame_of_extract {s : State} {ts : Timestamp} {cmd : Byte} {addr : BitVec 16} {xa : Bool}
    (hen : s.regs.en = true) (hst : s.regs.st = .asStop) (hlp : s.hits .lp ts = false) (hbp : s.hits .bp ts = true)
    (h : extract s.regs.raw s.regs.ext = .ok cmd addr xa) :
    Effect s (.edgeFall ts)
      { (s.regs.edged .falling (s.timeOf ts)).dropped with histValid := true, lastCmd := cmd, lastAddr := addr, lastXa := xa }
      (decRecord (packDec cmd addr false true xa) s.regs.tmoTag) := by
  obtain ⟨rfl, hc, ha⟩ := of_extract_eq_ok h
  exact .frame ts addr xa hen hst hlp hbp hc ha

/-- R93 and R102: a stop pulse after a frame that Extract refuses. -/
theorem Effect.checksum_of_extract {s : State} {ts : Timestamp} (hen : s.regs.en = true) (hst : s.regs.st = .asStop)
    (hlp : s.hits .lp ts = false) (hbp : s.hits .bp ts = true) (h : extract s.regs.raw s.regs.ext = .fail) :
    Effect s (.edgeFall ts) (s.regs.edged .falling (s.timeOf ts)).dropped (errorRecord s.regs.errEn 4#3 s.regs.tmoTag) :=
  .fallError ts .checksumMismatch hen (.checksum hst hlp hbp (of_extract_eq_fail h))

/-! ## The obligations -/

/-- Settles O18: the row `idleRise`. -/
theorem idleRisingEdgeSetsReference : Obligations.IdleRisingEdgeSetsReference :=
  fun _ ts hen hst => (Effect.idleRise ts hen hst).exec_eq

/-- Settles O19: the rows `leader` and `noise`. -/
theorem leaderAcceptedOrNoiseIgnored : Obligations.LeaderAcceptedOrNoiseIgnored :=
  ⟨fun _ ts hen hst hhave hdir hlp => (Effect.leader ts hen hst hhave hdir hlp).exec_eq,
    fun _ ts hen hst h => (Effect.noise ts hen hst h).exec_eq⟩

/-- Settles O20: the row `start`. -/
theorem leaderSpaceStartsFrame : Obligations.LeaderSpaceStartsFrame :=
  fun _ ts hen hst hls => (Effect.start ts hen hst hls).exec_eq

/-- Settles O21: the row `again`; and a pulse of 563 µs lies outside the default LP, so it is noise. -/
theorem repeatSpaceDeliversRepeat : Obligations.RepeatSpaceDeliversRepeat := by
  refine ⟨fun s ts hen hst hls hrs => (Effect.again ts hen hst hls hrs).exec_eq, fun s ts hcfg hen hst hd => ?_⟩
  have hlp : s.hits .lp ts = false := by rw [State.hits, hcfg, hd]; decide
  exact (Effect.noise ts hen hst (.inr (.inr hlp))).exec_eq

/-- Settles O22: the two errors of ALS. -/
theorem leaderAnomaliesAreErrors : Obligations.LeaderAnomaliesAreErrors :=
  ⟨fun _ ts hen hst hls hrs => (Effect.riseError ts _ hen (.space hst hls hrs)).exec_eq,
    fun _ ts hen hst => (Effect.fallError ts _ hen (.leader hst)).exec_eq⟩

/-- Settles O23: the row `pulse` and the three errors of a falling edge in RB. -/
theorem bitPulseOutcomes : Obligations.BitPulseOutcomes :=
  ⟨fun _ ts hen hst hdir => (Effect.fallError ts _ hen (.twice hst hdir)).exec_eq,
    fun _ ts hen hst hdir hlp => (Effect.fallError ts _ hen (.overrunBit hst hdir hlp)).exec_eq,
    fun _ ts hen hst hdir hlp hbp => (Effect.pulse ts hen hst hdir hlp hbp).exec_eq,
    fun _ ts hen hst hdir hlp hbp => (Effect.fallError ts _ hen (.bit hst hdir hlp hbp)).exec_eq⟩

/-- Settles O24: the row `bit` and the two errors of a rising edge in RB. The invariant keeps BITCNT at 31 or below and RAW below
2^BITCNT, so the 32nd bit is the one stored at 31, and a 0 leaves RAW. -/
theorem bitSpaceOutcomes : Obligations.BitSpaceOutcomes := by
  refine ⟨fun _ ts hen hst hdir => (Effect.riseError ts _ hen (.twice hst hdir)).exec_eq, ?bit,
    fun _ ts hen hst _ hb1 hb0 => (Effect.riseError ts _ hen (.bit hst hb1 hb0)).exec_eq⟩
  intro s ts b hinv hen hst hdir hb
  obtain ⟨-, hregs, -⟩ := hinv
  obtain ⟨-, hphase, -⟩ := (Regs.inv_iff _).1 hregs
  obtain ⟨hcnt, hraw, -⟩ := (Regs.phaseInv_rb hst).1 hphase
  have hlast : s.regs.bitcnt = 31#6 ↔ (s.regs.bitcnt + 1#6).toNat = frameBits := by
    rw [← BitVec.toNat_inj]; simp only [BitVec.toNat_add, BitVec.toNat_ofNat, frameBits]; omega
  have hspace : b = true ∧ s.hits .b1 ts = true ∨ b = false ∧ s.hits .b1 ts = false ∧ s.hits .b0 ts = true := by
    cases b with
    | true => exact .inl ⟨rfl, hb⟩
    | false => exact .inr ⟨rfl, hb⟩
  simp only [hlast, ← setBit_eq_of_lt b hraw]
  exact (Effect.bit ts b hen hst hdir hspace).exec_eq

/-- Settles O25: the errors of AS, and the two results of the extractor at a stop pulse. -/
theorem stopEdgeOutcomes : Obligations.StopEdgeOutcomes :=
  ⟨fun _ ts hen hst => (Effect.riseError ts _ hen (.stop hst)).exec_eq,
    fun _ ts hen hst hlp => (Effect.fallError ts _ hen (.overrunStop hst hlp)).exec_eq,
    fun _ ts hen hst hlp hbp => (Effect.fallError ts _ hen (.stop hst hlp hbp)).exec_eq,
    fun _ _ _ _ _ hen hst hlp hbp h => (Effect.frame_of_extract hen hst hlp hbp h).exec_eq,
    fun _ _ hen hst hlp hbp h => (Effect.checksum_of_extract hen hst hlp hbp h).exec_eq⟩

/-- Settles O40: the rows that report an error, an expired timeout and the error exits, start outside IDLE. -/
theorem noErrorInIdle : Obligations.NoErrorInIdle := by
  intro i s t h hst
  obtain ⟨r, o, he, rfl⟩ := exec_cases h
  cases he with
  | expire _ hne => exact absurd hst hne
  | riseError _ _ _ he => exact absurd hst he.st_ne_idle
  | fallError _ _ _ he => exact absurd hst he.st_ne_idle
  | _ => rfl

end Sys2Proof.Machine
end

section
/-! PROOFS. A well-timed transmission is received (spec/41_frame_fsm.md R97, spec/42_fields.md R106): the block is followed edge by
edge, in closed form from the leader to the stop pulse. -/

namespace Sys2Proof.Machine

/-! ## Edges at true times -/

/-- What TS holds of a true time: the time modulo 2^W (R136). -/
def timestamp (W time : Nat) : Timestamp := BitVec.ofNat 32 (time % 2 ^ W)

theorem timestamp_toNat {W : Nat} (hW : W ≤ 32) (time : Nat) : (timestamp W time).toNat = time % 2 ^ W :=
  Nat.mod_eq_of_lt ((Nat.mod_lt _ (Nat.two_pow_pos W)).trans_le (Nat.pow_le_pow_right two_pos hW))

theorem edgeTime_timestamp {W : Nat} (hW : W ≤ 32) (time : Nat) : edgeTime W (timestamp W time) = timestamp W time := by
  rw [edgeTime, timestamp_toNat hW, Nat.mod_mod, timestamp]

/-- An edge δ µs after the reference, with δ in some window, ends an interval of δ, whatever the wraps (R70, R81). -/
theorem interval_timestamp {s : State} {t δ : Nat} (hcfg : s.cfg.Legal) (k : Category)
    (ht : s.regs.tLast = timestamp s.cfg.tsWidth t) (hδ : inWindow (s.cfg.windows.get k) δ = true) :
    interval (timestamp s.cfg.tsWidth (t + δ)) s = δ := by
  obtain ⟨-, -, hhi⟩ := hcfg.window k
  obtain ⟨⟨hlow, hhigh⟩, -⟩ := hcfg
  obtain ⟨-, hδ⟩ := (inWindow_iff _ _).1 hδ
  refine sdiff_of_congr _ _ _ δ (by omega) (by omega) ?_
  rw [edgeTime_timestamp hhigh, timestamp_toNat hhigh, ht, timestamp_toNat hhigh, Nat.mod_mod, Nat.mod_add_mod]

theorem hits_timestamp {s : State} {t δ : Nat} (hcfg : s.cfg.Legal) {k : Category} (j : Category)
    (ht : s.regs.tLast = timestamp s.cfg.tsWidth t) (hδ : inWindow (s.cfg.windows.get k) δ = true) :
    s.hits j (timestamp s.cfg.tsWidth (t + δ)) = inWindow (s.cfg.windows.get j) δ := by
  rw [State.hits, interval_timestamp hcfg k ht hδ, classify_get]

/-- A bit pulse is no leader pulse (R73). -/
theorem not_lp_of_bp {p : Params} {d : Int} (hcfg : p.Legal) (hd : inWindow p.windows.bp d = true) :
    inWindow p.windows.lp d = false := by
  obtain ⟨-, -, ⟨hdisj, -⟩, -⟩ := hcfg
  exact Bool.eq_false_iff.2 fun hlp => not_inWindow_both hdisj d ⟨hlp, hd⟩

/-- The step that presents an edge is the row of `Effect` the edge takes. -/
theorem step_edge {s : State} {W time : Nat} {d : Dir} {es : List (Dir × Nat)} {r : Regs} {o : Output}
    (hport : s.port = edgeInputs W ((d, time) :: es))
    (he : Effect (s.setPort (edgeInputs W es)) (edgeEvent W d time) r o) :
    step s = .next ((s.setPort (edgeInputs W es)).answer r o) := by
  rw [step_event s _ _ hport, decode_encode]
  exact he.exec_eq

/-! ## Runs without a report -/

/-- k steps lead from s to t, and none of their records has a DEC or an ERR. -/
def SilentRun (k : Nat) (s t : State) : Prop := runSteps k s = .next t ∧ ∀ o ∈ observe k s, o.Silent

theorem SilentRun.zero (s : State) : SilentRun 0 s s := ⟨rfl, nofun⟩

theorem SilentRun.succ {k : Nat} {s t u : State} (hstep : step s = .next t) (hout : t.out.Silent) (h : SilentRun k t u) :
    SilentRun (k + 1) s u := by
  obtain ⟨hrun, hobs⟩ := h
  refine ⟨?_, ?_⟩
  · simp only [runSteps, hstep, hrun]
  · simp only [observe, hstep, List.mem_cons, forall_eq_or_imp]
    exact ⟨hout, hobs⟩

theorem Output.silent_idle : Output.idle.Silent := ⟨rfl, rfl⟩

theorem restartRecord_silent (g : Tag) : (restartRecord g).Silent := ⟨rfl, rfl⟩

/-! ## The block in the middle of a transmission -/

/-- How far a transmission has come: the frame state, the last edge and its true time, the number of bits received, and the word
they make. -/
structure Attempt where
  st : FrameState
  dir : Dir
  time : Nat
  count : Nat
  word : Nat

/-- The block s so far into a transmission, with tag g, as the last RESTART left it, and these edges still to come. -/
def State.receiving (s : State) (a : Attempt) (g : Tag) (es : List (Dir × Nat)) : State where
  cfg := s.cfg
  regs := { s.regs with
    st := a.st, bitcnt := BitVec.ofNat 6 a.count, raw := BitVec.ofNat 32 a.word, tLast := timestamp s.cfg.tsWidth a.time,
    haveLast := true, lastDir := a.dir, tmoTag := g }
  out := restartRecord g
  port := edgeInputs s.cfg.tsWidth es

/-- The frame state before a bit pulse or the stop pulse, after n bits (R91). -/
def stateAfterBits (n : Nat) : FrameState := if n = frameBits then .asStop else .rb

/-- Pulse and space of one bit lie in their windows (R89, R91). -/
def bitInWindows (w : Windows) (b : Nat × Nat) : Bool :=
  inWindow w.bp b.1 && (inWindow w.b1 b.2 || inWindow w.b0 b.2)

theorem FrameTiming.wellTimed_iff (w : Windows) (f : FrameTiming) :
    f.wellTimed w = true ↔
      inWindow w.lp f.leaderPulse = true ∧ inWindow w.ls f.leaderSpace = true ∧ inWindow w.bp f.stopPulse = true ∧
        f.bits.length = frameBits ∧ f.bits.all (bitInWindows w) = true := by
  have hbits : (fun b : Nat × Nat => inWindow w.bp b.1 && (inWindow w.b1 b.2 || inWindow w.b0 b.2)) = bitInWindows w := rfl
  simp only [FrameTiming.wellTimed, hbits, Bool.and_eq_true, decide_eq_true_eq, and_assoc]

/-- The bit stored at place n has the weight 2^n (R24, R100). -/
theorem setBit_ofNat {x n : Nat} (b : Bool) (hn : n ≤ 31) (hx : x < 2 ^ n) :
    setBit (BitVec.ofNat 32 x) n b = BitVec.ofNat 32 (x + 2 ^ n * if b then 1 else 0) := by
  have hpow : 2 ^ n * 2 ≤ 2 ^ 32 := by rw [← pow_succ]; exact Nat.pow_le_pow_right two_pos (by omega)
  have hword : (BitVec.ofNat 32 x).toNat = x := Nat.mod_eq_of_lt (by omega)
  rw [setBit_eq_of_lt b (hword.symm ▸ hx)]
  cases b with
  | false => rfl
  | true =>
    have hplace : (1#32 <<< n).toNat = 2 ^ n := by
      rw [BitVec.toNat_shiftLeft, BitVec.toNat_ofNat, Nat.shiftLeft_eq, Nat.one_mod, one_mul, Nat.mod_eq_of_lt (by omega)]
    have hor : x ||| 2 ^ n = x + 2 ^ n := by
      simpa only [mul_one, Nat.or_comm, Nat.add_comm] using (Nat.two_pow_add_eq_or_of_lt hx 1).symm
    apply BitVec.eq_of_toNat_eq
    rw [if_pos rfl, if_pos rfl, mul_one, BitVec.toNat_or, hword, hplace, hor, BitVec.toNat_ofNat, Nat.mod_eq_of_lt (by omega)]

section Reception

variable {s : State} {t n x : Nat} {g : Tag} {es : List (Dir × Nat)}

/-! ## One edge of a transmission -/

theorem step_receiving_rise {a : Attempt} {time : Nat} {r : Regs} {o : Output}
    (he : Effect (s.receiving a g es) (.edgeRise (timestamp s.cfg.tsWidth time)) r o) :
    step (s.receiving a g ((.rising, time) :: es)) = .next ((s.receiving a g es).answer r o) :=
  step_edge (s := s.receiving a g ((.rising, time) :: es)) rfl he

theorem step_receiving_fall {a : Attempt} {time : Nat} {r : Regs} {o : Output}
    (he : Effect (s.receiving a g es) (.edgeFall (timestamp s.cfg.tsWidth time)) r o) :
    step (s.receiving a g ((.falling, time) :: es)) = .next ((s.receiving a g es).answer r o) :=
  step_edge (s := s.receiving a g ((.falling, time) :: es)) rfl he

variable (hcfg : s.cfg.Legal)
include hcfg

theorem receiving_timeOf {a : Attempt} {time : Nat} :
    (s.receiving a g es).timeOf (timestamp s.cfg.tsWidth time) = timestamp s.cfg.tsWidth time :=
  edgeTime_timestamp hcfg.1.2 time

/-- An edge δ µs after the last one, with δ in some window, hits what δ hits. -/
theorem receiving_hits {st : FrameState} {d : Dir} {δ : Nat} {k : Category} (j : Category)
    (hδ : inWindow (s.cfg.windows.get k) δ = true) :
    (s.receiving ⟨st, d, t, n, x⟩ g es).hits j (timestamp s.cfg.tsWidth (t + δ)) = inWindow (s.cfg.windows.get j) δ :=
  hits_timestamp (s := s.receiving ⟨st, d, t, n, x⟩ g es) hcfg j rfl hδ

/-- A pulse in BP is seen as a bit pulse and as no leader pulse (R73). -/
theorem receiving_hits_pulse {st : FrameState} {d : Dir} {p : Nat} (hp : inWindow s.cfg.windows.bp p = true) :
    (s.receiving ⟨st, d, t, n, x⟩ g es).hits .lp (timestamp s.cfg.tsWidth (t + p)) = false ∧
    (s.receiving ⟨st, d, t, n, x⟩ g es).hits .bp (timestamp s.cfg.tsWidth (t + p)) = true :=
  ⟨(receiving_hits hcfg (k := .bp) .lp hp).trans (not_lp_of_bp hcfg hp), (receiving_hits hcfg (k := .bp) .bp hp).trans hp⟩

/-- A space in B1 or B0 is seen as the bit it stands for: the guard of the row `bit`, and B1 is tested first (R91). -/
theorem receiving_hits_space {st : FrameState} {d : Dir} {q : Nat}
    (hq : (inWindow s.cfg.windows.b1 q || inWindow s.cfg.windows.b0 q) = true) :
    inWindow s.cfg.windows.b1 q = true ∧
      (s.receiving ⟨st, d, t, n, x⟩ g es).hits .b1 (timestamp s.cfg.tsWidth (t + q)) = true ∨
    inWindow s.cfg.windows.b1 q = false ∧
      (s.receiving ⟨st, d, t, n, x⟩ g es).hits .b1 (timestamp s.cfg.tsWidth (t + q)) = false ∧
      (s.receiving ⟨st, d, t, n, x⟩ g es).hits .b0 (timestamp s.cfg.tsWidth (t + q)) = true := by
  cases h1 : inWindow s.cfg.windows.b1 q with
  | true => exact .inl ⟨rfl, (receiving_hits hcfg (k := .b1) .b1 h1).trans h1⟩
  | false =>
    have h0 : inWindow s.cfg.windows.b0 q = true := by simpa only [h1, Bool.false_or] using hq
    exact .inr ⟨rfl, (receiving_hits hcfg (k := .b0) .b1 h0).trans h1, (receiving_hits hcfg (k := .b0) .b0 h0).trans h0⟩

variable (hen : s.regs.en = true)
include hen

/-- R82, R83: from IDLE, a rising edge, and a leader pulse later a falling one. -/
theorem silentRun_leader {u : State} {p k : Nat} (hst : s.regs.st = .idle) (hp : inWindow s.cfg.windows.lp p = true)
    (hport : s.port = edgeInputs s.cfg.tsWidth ((.rising, t) :: (.falling, t + p) :: es))
    (h : SilentRun k (s.receiving ⟨.als, .falling, t + p, 0, 0⟩ (s.regs.tmoTag + 1#4) es) u) : SilentRun (k + 2) s u := by
  let s₁ := (s.setPort (edgeInputs s.cfg.tsWidth ((.falling, t + p) :: es))).answer
    (s.regs.edged .rising (timestamp s.cfg.tsWidth t)) Output.idle
  have hrise : step s = .next s₁ := by
    rw [step_edge hport (.idleRise (timestamp s.cfg.tsWidth t) hen hst), State.timeOf, State.setPort_cfg,
      edgeTime_timestamp hcfg.1.2]
    rfl
  have hlp : (s₁.setPort (edgeInputs s.cfg.tsWidth es)).hits .lp (timestamp s.cfg.tsWidth (t + p)) = true :=
    (hits_timestamp (s := s₁.setPort (edgeInputs s.cfg.tsWidth es)) hcfg (k := .lp) .lp rfl hp).trans hp
  have hfall : step s₁ = .next (s.receiving ⟨.als, .falling, t + p, 0, 0⟩ (s.regs.tmoTag + 1#4) es) := by
    rw [step_edge (s := s₁) rfl (.leader (timestamp s.cfg.tsWidth (t + p)) hen hst rfl rfl hlp), State.timeOf]
    refine congrArg _ (State.eq_of_fields rfl ?_ rfl rfl)
    simp [s₁, edgeTime_timestamp hcfg.1.2, State.receiving, Regs.edged]
  exact .succ hrise Output.silent_idle (.succ hfall (restartRecord_silent _) h)

/-- R84: the leader space. -/
theorem step_leaderSpace {q : Nat} (hq : inWindow s.cfg.windows.ls q = true) :
    step (s.receiving ⟨.als, .falling, t, n, x⟩ g ((.rising, t + q) :: es)) =
      .next (s.receiving ⟨.rb, .rising, t + q, 0, 0⟩ (g + 1#4) es) := by
  have hls : (s.receiving ⟨.als, .falling, t, n, x⟩ g es).hits .ls (timestamp s.cfg.tsWidth (t + q)) = true :=
    (receiving_hits hcfg (k := .ls) .ls hq).trans hq
  have he := Effect.start (s := s.receiving ⟨.als, .falling, t, n, x⟩ g es) _ hen rfl hls
  rw [step_receiving_rise he, receiving_timeOf hcfg]
  rfl

/-- R89: a bit pulse. -/
theorem step_bitPulse {p : Nat} (hp : inWindow s.cfg.windows.bp p = true) :
    step (s.receiving ⟨.rb, .rising, t, n, x⟩ g ((.falling, t + p) :: es)) =
      .next (s.receiving ⟨.rb, .falling, t + p, n, x⟩ (g + 1#4) es) := by
  obtain ⟨hlp, hbp⟩ := receiving_hits_pulse hcfg hp
  have he := Effect.pulse (s := s.receiving ⟨.rb, .rising, t, n, x⟩ g es) _ hen rfl rfl hlp hbp
  rw [step_receiving_fall he, receiving_timeOf hcfg]
  rfl

/-- R91: a bit space, long for a 1. -/
theorem step_bitSpace {q : Nat} (hn : n ≤ 31) (hx : x < 2 ^ n)
    (hq : (inWindow s.cfg.windows.b1 q || inWindow s.cfg.windows.b0 q) = true) :
    step (s.receiving ⟨.rb, .falling, t, n, x⟩ g ((.rising, t + q) :: es)) =
      .next (s.receiving ⟨stateAfterBits (n + 1), .rising, t + q, n + 1,
        x + 2 ^ n * if inWindow s.cfg.windows.b1 q then 1 else 0⟩ (g + 1#4) es) := by
  have he := Effect.bit (s := s.receiving ⟨.rb, .falling, t, n, x⟩ g es) _ _ hen rfl rfl (receiving_hits_space hcfg hq)
  have hcount : (BitVec.ofNat 6 n).toNat = n := Nat.mod_eq_of_lt (by omega)
  have hnext : BitVec.ofNat 6 n + 1#6 = BitVec.ofNat 6 (n + 1) := BitVec.ofNat_add_ofNat n 1
  have hcount' : (BitVec.ofNat 6 (n + 1)).toNat = n + 1 := Nat.mod_eq_of_lt (by omega)
  rw [step_receiving_rise he, receiving_timeOf hcfg]
  refine congrArg _ (State.eq_of_fields rfl ?_ rfl rfl)
  simp only [State.answer_regs, State.receiving, hcount, hnext, hcount', setBit_ofNat _ hn hx, Regs.edged, stateAfterBits]

/-- R93, R104: the stop pulse after a word that Extract accepts. -/
theorem step_stopPulse_ok {p : Nat} {cmd : Byte} {addr : BitVec 16} {xa : Bool} (hp : inWindow s.cfg.windows.bp p = true)
    (h : extract (BitVec.ofNat 32 x) s.regs.ext = .ok cmd addr xa) :
    ∃ v, step (s.receiving ⟨.asStop, .rising, t, n, x⟩ g [(.falling, t + p)]) = .next v ∧
      v.port = [] ∧ v.regs.st = .idle ∧ v.out = decRecord (packDec cmd addr false true xa) v.regs.tmoTag ∧
      v.regs.histValid = true ∧ v.regs.lastCmd = cmd ∧ v.regs.lastAddr = addr ∧ v.regs.lastXa = xa := by
  obtain ⟨hlp, hbp⟩ := receiving_hits_pulse hcfg hp
  have he := Effect.frame_of_extract (s := s.receiving ⟨.asStop, .rising, t, n, x⟩ g []) hen rfl hlp hbp h
  exact ⟨_, step_receiving_fall he, rfl, rfl, rfl, rfl, rfl, rfl, rfl⟩

/-- R93, R102: the stop pulse after a word that Extract refuses. -/
theorem step_stopPulse_fail {p : Nat} (hp : inWindow s.cfg.windows.bp p = true)
    (h : extract (BitVec.ofNat 32 x) s.regs.ext = .fail) :
    ∃ v, step (s.receiving ⟨.asStop, .rising, t, n, x⟩ g [(.falling, t + p)]) = .next v ∧
      v.port = [] ∧ v.regs.st = .idle ∧ v.out = errorRecord s.regs.errEn 4#3 v.regs.tmoTag ∧
      v.regs.histValid = s.regs.histValid ∧ v.regs.lastCmd = s.regs.lastCmd ∧ v.regs.lastAddr = s.regs.lastAddr ∧
      v.regs.lastXa = s.regs.lastXa := by
  obtain ⟨hlp, hbp⟩ := receiving_hits_pulse hcfg hp
  have he := Effect.checksum_of_extract (s := s.receiving ⟨.asStop, .rising, t, n, x⟩ g []) hen rfl hlp hbp h
  exact ⟨_, step_receiving_fall he, rfl, rfl, rfl, rfl, rfl, rfl, rfl⟩

/-! ## The whole transmission -/

/-- R91: the bits still to come end in AS, and each adds its weight to the word. -/
theorem silentRun_bits {stop : Nat} {bs : List (Nat × Nat)} (hn : n + bs.length = frameBits) (hx : x < 2 ^ n)
    (hbs : bs.all (bitInWindows s.cfg.windows) = true) :
    ∃ t' g', SilentRun (2 * bs.length) (s.receiving ⟨stateAfterBits n, .rising, t, n, x⟩ g (bitTimes stop t bs))
      (s.receiving ⟨.asStop, .rising, t', frameBits, x + 2 ^ n * sentWord s.cfg.windows bs⟩ g' [(.falling, t' + stop)]) := by
  induction bs generalizing t n x g with
  | nil =>
    obtain rfl : n = frameBits := hn
    exact ⟨t, g, .zero _⟩
  | cons b bs ih =>
    obtain ⟨p, q⟩ := b
    simp only [List.all_cons, bitInWindows, Bool.and_eq_true] at hbs
    obtain ⟨⟨hp, hq⟩, hbs⟩ := hbs
    rw [List.length_cons] at hn
    have hn' : n < frameBits := by omega
    have hx' : x + 2 ^ n * (if inWindow s.cfg.windows.b1 q then 1 else 0) < 2 ^ (n + 1) := by
      rw [pow_succ]; split <;> omega
    have hword : x + 2 ^ n * sentWord s.cfg.windows ((p, q) :: bs) =
        x + 2 ^ n * (if inWindow s.cfg.windows.b1 q then 1 else 0) + 2 ^ (n + 1) * sentWord s.cfg.windows bs := by
      rw [sentWord]; ring
    obtain ⟨t', g', hrun⟩ := ih (t := t + p + q) (g := g + 1#4 + 1#4) (by omega) hx' hbs
    refine ⟨t', g', ?_⟩
    rw [stateAfterBits, if_neg hn'.ne, hword]
    exact .succ (step_bitPulse hcfg hen hp) (restartRecord_silent _)
      (.succ (step_bitSpace hcfg hen (Nat.le_of_lt_succ hn') hx hq) (restartRecord_silent _) hrun)

/-- Before the stop pulse: 67 edges without a report, and RAW holds the word the transmission carries. -/
theorem silentRun_frame {f : FrameTiming} (hst : s.regs.st = .idle) (hf : f.wellTimed s.cfg.windows = true)
    (hport : s.port = edgeInputs s.cfg.tsWidth f.edges) :
    ∃ t g, SilentRun 67 s (s.receiving ⟨.asStop, .rising, t, frameBits, sentWord s.cfg.windows f.bits⟩ g
      [(.falling, t + f.stopPulse)]) := by
  obtain ⟨hlp, hls, -, hlen, hbits⟩ := (f.wellTimed_iff _).1 hf
  obtain ⟨t, g, hrun⟩ := silentRun_bits hcfg hen (stop := f.stopPulse) (t := f.start + f.leaderPulse + f.leaderSpace)
    (g := s.regs.tmoTag + 1#4 + 1#4) ((Nat.zero_add _).trans hlen) Nat.one_pos hbits
  rw [hlen, pow_zero, one_mul, zero_add] at hrun
  exact ⟨t, g, silentRun_leader hcfg hen hst hlp hport (.succ (step_leaderSpace hcfg hen hls) (restartRecord_silent _) hrun)⟩

end Reception

/-- Settles O54: 67 silent edges lead to AS with the word received (`silentRun_frame`), and the stop pulse delivers it or reports
that it is refused. -/
theorem wellTimedFrameIsReceived : Obligations.WellTimedFrameIsReceived := by
  intro s f hinv hen hst hf hport
  obtain ⟨hcfg, -, -⟩ := hinv
  obtain ⟨-, -, hstop, -, -⟩ := (f.wellTimed_iff _).1 hf
  obtain ⟨t, g, hrun, hsilent⟩ := silentRun_frame hcfg hen hst hf hport
  refine ⟨hsilent, ?_⟩
  rw [runSteps_add 67 1 s _ hrun, runSteps]
  cases hx : extract (f.raw s.cfg.windows) s.regs.ext with
  | ok cmd addr xa =>
    obtain ⟨v, hstep, hv⟩ := step_stopPulse_ok (t := t) (n := frameBits) (g := g) hcfg hen hstop hx
    rw [hstep]
    exact ⟨v, rfl, hv⟩
  | fail =>
    obtain ⟨v, hstep, hv⟩ := step_stopPulse_fail (t := t) (n := frameBits) (g := g) hcfg hen hstop hx
    rw [hstep]
    exact ⟨v, rfl, hv⟩

end Sys2Proof.Machine
end

section
/-! PROOFS. The bit accumulator, the extractor and the results it justifies (spec/42_fields.md R100 to R106), from the laws of
`setBit`, `extract` and `validate` and the rows of `Effect`. -/

namespace Sys2Proof.Machine

/-! ## StoreBit -/

/-- Below 32 bits the counter does not wrap (R23, R100). -/
theorem storeBit_bitcnt_toNat {s : State} (b : Bool) (hcnt : s.regs.bitcnt.toNat ≤ 31) :
    (storeBit b s).regs.bitcnt.toNat = s.regs.bitcnt.toNat + 1 := by
  simp only [storeBit_regs, BitVec.toNat_add, BitVec.toNat_ofNat]; omega

/-- Settles O30: the laws of `setBit` give the bit and the bound of RAW, and the counter does not wrap. -/
theorem storeBitAppendsOneBit : Obligations.StoreBitAppendsOneBit := by
  intro s b hcnt
  refine ⟨fun j hj => setBit_getLsbD _ _ j b hj, storeBit_bitcnt_toNat b hcnt, fun hraw => ?_, rfl⟩
  rw [storeBit_bitcnt_toNat b hcnt]
  exact setBit_lt _ _ b hraw

/-! ## Extract -/

/-- The converse of `of_extract_eq_fail`: what Validate refuses, Extract refuses (R102, R106). -/
theorem extract_eq_fail {raw : BitVec 32} {ext : Bool}
    (h : byteC0 raw ≠ ~~~(byteC1 raw) ∨ ext = false ∧ byteA0 raw ≠ ~~~(byteA1 raw)) : extract raw ext = .fail := by
  rw [extract, sub_eq_not, sub_eq_not]
  obtain hc | ⟨rfl, ha⟩ := h
  · exact if_pos hc
  · rw [if_neg ha, if_neg Bool.false_ne_true, ite_self]

/-- The command bytes of an 8-bit frame are complementary (R59). -/
theorem frame8Raw_command (a c : Byte) : byteC0 (frame8Raw a c) = ~~~(byteC1 (frame8Raw a c)) := by
  rw [byteC0_frame8Raw, byteC1_frame8Raw, BitVec.not_not]

/-- The address bytes of an 8-bit frame are complementary (R59). -/
theorem frame8Raw_address (a c : Byte) : byteA0 (frame8Raw a c) = ~~~(byteA1 (frame8Raw a c)) := by
  rw [byteA0_frame8Raw, byteA1_frame8Raw, BitVec.not_not]

theorem extract_frame8Raw (a c : Byte) (ext : Bool) : extract (frame8Raw a c) ext = .ok c (a.setWidth 16) false := by
  rw [extract_eq_ok (frame8Raw_command a c) (.inl ⟨frame8Raw_address a c, rfl, rfl⟩), byteC0_frame8Raw, byteA0_frame8Raw]

/-- Settles O31: each result of Extract decides the branch of Validate. -/
theorem validateAgreesWithExtract : Obligations.ValidateAgreesWithExtract := by
  refine ⟨fun s => ?_, by decide⟩
  cases hx : extract s.regs.raw s.regs.ext with
  | ok cmd addr xa =>
    obtain ⟨rfl, hc, ha⟩ := of_extract_eq_ok hx
    exact validate_eq_deliver hc ha
  | fail => exact validate_eq_raiseError (of_extract_eq_fail hx)

/-- Settles O32: the word is `frame8Raw`. -/
theorem complementedFrameExtracts : Obligations.ComplementedFrameExtracts := extract_frame8Raw

/-- Settles O34: what an accepted word's bytes say (`of_extract_eq_ok`) and what its bytes make of a word (`extract_eq_ok`). -/
theorem addressFormsOfBothVariants : Obligations.AddressFormsOfBothVariants := by
  refine ⟨fun raw cmd addr xa h => ?std, fun raw hc ha => extract_eq_ok hc (.inl ⟨ha, rfl, rfl⟩),
    fun raw hc ha => extract_eq_ok hc (.inr ⟨ha, rfl, rfl, rfl⟩), fun raw cmd addr xa h => ?both⟩
  case std =>
    obtain ⟨-, -, hstd | ⟨-, hext, -⟩⟩ := of_extract_eq_ok h
    · exact hstd
    · cases hext
  case both =>
    obtain ⟨rfl, hc, hstd | ⟨-, hext, -⟩⟩ := of_extract_eq_ok h
    · exact extract_eq_ok hc (.inl hstd)
    · cases hext

/-! ## A flipped bit -/

theorem flip_getLsbD (v : BitVec 32) {i j : Nat} (hi : i < 32) :
    (v ^^^ (1#32 <<< i)).getLsbD j = (v.getLsbD j ^^ decide (i = j)) := by
  rw [← BitVec.twoPow_eq, BitVec.getLsbD_xor, BitVec.getLsbD_twoPow, decide_eq_true hi, Bool.true_and]

/-- A flip outside a byte leaves it. -/
theorem extractLsb'_flip_of_outside (v : BitVec 32) {i k : Nat} (hi : i < 32) (h : i < k ∨ k + 8 ≤ i) :
    (v ^^^ (1#32 <<< i)).extractLsb' k 8 = v.extractLsb' k 8 := by
  apply BitVec.eq_of_getLsbD_eq
  intro j hj
  rw [BitVec.getLsbD_extractLsb', BitVec.getLsbD_extractLsb', flip_getLsbD v hi, decide_eq_false (by omega : i ≠ k + j),
    Bool.xor_false]

/-- A flip inside a byte changes it. -/
theorem extractLsb'_flip_ne (v : BitVec 32) {i k : Nat} (hi : i < 32) (hk : k ≤ i) (hk' : i < k + 8) :
    (v ^^^ (1#32 <<< i)).extractLsb' k 8 ≠ v.extractLsb' k 8 := by
  intro h
  have hbit := congrArg (BitVec.getLsbD · (i - k)) h
  simp [show i - k < 8 by omega, show k + (i - k) = i by omega, flip_getLsbD v hi] at hbit

/-- A pair whose plain byte is kept and whose inverted byte is not is no longer complementary. -/
theorem ne_not_of_corrupted {p q p' q' : Byte} (h : p = ~~~q) (hp : p' = p) (hq : q' ≠ q) : p' ≠ ~~~q' := by
  intro h'
  exact hq (BitVec.not_inj.1 (h'.symm.trans (hp.trans h)))

/-- R105: a flip in the inverted command byte is caught in both variants. -/
theorem extract_flip_command {raw : BitVec 32} {i : Nat} (ext : Bool) (hc : byteC0 raw = ~~~(byteC1 raw)) (hi : 24 ≤ i)
    (hi' : i ≤ 31) : extract (raw ^^^ (1#32 <<< i)) ext = .fail :=
  extract_eq_fail (.inl (ne_not_of_corrupted hc (extractLsb'_flip_of_outside raw (by omega) (by omega))
    (extractLsb'_flip_ne raw (by omega) (by omega) (by omega))))

/-- R105: a flip in the inverted address byte is caught in the 8-bit variant. -/
theorem extract_flip_address {raw : BitVec 32} {i : Nat} (ha : byteA0 raw = ~~~(byteA1 raw)) (hi : 8 ≤ i) (hi' : i ≤ 15) :
    extract (raw ^^^ (1#32 <<< i)) false = .fail :=
  extract_eq_fail (.inr ⟨rfl, ne_not_of_corrupted ha (extractLsb'_flip_of_outside raw (by omega) (by omega))
    (extractLsb'_flip_ne raw (by omega) (by omega) (by omega))⟩)

/-- Settles O33: the flip leaves the plain byte of a complementary pair and changes its inverted byte; and the row of a refused
frame. -/
theorem corruptedInvertedByteIsCaught : Obligations.CorruptedInvertedByteIsCaught := by
  refine ⟨fun a c i hi => ?std, fun a c i ⟨hlo, hhi⟩ => extract_flip_command true (frame8Raw_command a c) hlo hhi,
    fun s ts hen hst hlp hbp h => (Effect.checksum_of_extract hen hst hlp hbp h).exec_eq⟩
  case std =>
    obtain ⟨hlo, hhi⟩ | ⟨hlo, hhi⟩ := hi
    · exact extract_flip_address (frame8Raw_address a c) hlo hhi
    · exact extract_flip_command false (frame8Raw_command a c) hlo hhi

/-! ## What justifies a result -/

/-- Settles O49: the rows `frame` and `again` drive DEC, and no other. -/
theorem resultsAreJustified : Obligations.ResultsAreJustified := by
  intro i s t h hdec
  obtain ⟨r, o, he, rfl⟩ := exec_cases h
  rw [State.answer_out] at hdec ⊢
  cases he with
  | again ts hen hst hls hrs => exact ⟨hen, .inr ⟨ts, rfl, hst, hrs, packDec_repeat ..⟩⟩
  | frame ts a x hen hst hlp hbp hc ha =>
    have haddr : s.regs.ext = false → byteA0 s.regs.raw = ~~~(byteA1 s.regs.raw) := by
      obtain ⟨hstd, -, -⟩ | ⟨-, hext, -, -⟩ := ha
      · exact fun _ => hstd
      · exact fun hstd => absurd (hext.symm.trans hstd) nofun
    exact ⟨hen, .inl ⟨ts, rfl, hst, hbp, hc, haddr, packDec_cmd .., packDec_repeat .., packDec_valid ..⟩⟩
  | expire => rw [timeoutRecord_decV] at hdec; cases hdec
  | riseError | fallError => rw [errorRecord_decV] at hdec; cases hdec
  | _ => cases hdec

end Sys2Proof.Machine
end

section
/-! PROOFS. The frame timeout (spec/43_timeout.md R112 to R114): the two outcomes of TIMEOUT, the tag after n RESTARTs, the
gaps an advancing edge ends, and a timeout as the Edge Timer of the closed system delivers it (spec/60_exceptions.md R138). -/

namespace Sys2Proof

/-- R7, R73: the timeout is longer than every category's window. -/
theorem Params.Legal.hi_lt_timeout {p : Params} (hp : p.Legal) (k : Category) : (p.windows.get k).hi < p.timeoutMs * 1000 := by
  obtain ⟨-, -, -, -, hlp, hls, hrs, hbp, hb0, hb1⟩ := hp
  cases k with
  | lp => exact hlp
  | ls => exact hls
  | rs => exact hrs
  | bp => exact hbp
  | b0 => exact hb0
  | b1 => exact hb1

end Sys2Proof

namespace Sys2Proof.Machine

/-! ## The TIMEOUT event -/

/-- R112: a current TIMEOUT drops the attempt of an armed block. -/
theorem exec_timeout_current {s : State} (hs : s.Armed) :
    exec (.timeout s.regs.tmoTag) s = .next (s.answer s.regs.dropped (timeoutRecord s.regs.errEn)) := by
  obtain ⟨hen, hst⟩ := hs
  exact (Effect.expire hen hst).exec_eq

/-- R113, R121: a TIMEOUT to an unbound block does nothing, nor does a stale one. -/
theorem exec_timeout_ignored {s : State} {g : Tag} (h : s.regs.en = false ∨ s.regs.st = .idle ∨ g ≠ s.regs.tmoTag) :
    exec (.timeout g) s = .next (s.answer s.regs Output.idle) := by
  cases hen : s.regs.en with
  | false => exact (Effect.unbound (.timeout g) hen nofun).exec_eq
  | true => exact (Effect.stale g hen (h.resolve_left (by simp [hen]))).exec_eq

theorem ignoresTimeout_iff (g : Tag) (s : State) :
    ignoresTimeout g s = true ↔ s.regs.en = false ∨ s.regs.st = .idle ∨ g ≠ s.regs.tmoTag := by
  rw [ignoresTimeout, Bool.or_eq_true, staleTimeout_iff, Bool.not_eq_true']

/-- R112: an interval longer than the timeout matches no category. -/
theorem classify_get_of_late {p : Params} (hp : p.Legal) (k : Category) {d : Int} (hd : (p.timeoutMs * 1000 : Nat) < d) :
    (classify p.windows d).get k = false := by
  have hhi := hp.hi_lt_timeout k
  rw [Bool.eq_false_iff, ne_eq, classify_get_iff]
  omega

/-- Settles O16: the two outcomes of TIMEOUT; and an edge later than the timeout hits no LP, so in IDLE it is noise. -/
theorem currentTimeoutEndsTheFrame : Obligations.CurrentTimeoutEndsTheFrame := by
  refine ⟨fun _ => exec_timeout_current, fun _ _ => exec_timeout_ignored, fun _ => decode_timeout, ?late⟩
  case late =>
    intro s ts hcfg hen hst hd
    have hlp : s.hits .lp ts = false := classify_get_of_late hcfg .lp hd
    exact (Effect.noise ts hen hst (.inr (.inr hlp))).exec_eq

/-! ## The tag after a number of RESTARTs -/

/-- R110: n RESTARTs advance the tag by n modulo 16. -/
theorem timerRestart_iterate_tmoTag (n : Nat) (s : State) :
    (timerRestart^[n] s).regs.tmoTag = s.regs.tmoTag + BitVec.ofNat 4 n := by
  induction n with
  | zero => exact (BitVec.add_zero _).symm
  | succ n ih =>
    rw [Function.iterate_succ_apply', timerRestart_regs]
    simp only [ih, BitVec.ofNat_add, BitVec.add_assoc]

/-- From tag 0, g RESTARTs reach tag g. -/
theorem timerRestart_iterate_toNat {s : State} (h : s.regs.tmoTag = 0#4) (g : Tag) :
    (timerRestart^[g.toNat] s).regs.tmoTag = g := by
  rw [timerRestart_iterate_tmoTag, h, BitVec.ofNat_toNat, BitVec.setWidth_eq, BitVec.zero_add]

theorem exec_close_en {s t : State} (h : exec .close s = .next t) : t.regs.en = false := by
  rw [exec_close_regs h]
  split
  · rfl
  · next hen => exact Bool.eq_false_iff.2 hen

/-- R116: ENABLE on an unbound block starts from the reset values. -/
theorem exec_enable_regs {x : Bool} {s t : State} (hen : s.regs.en = false) (h : exec (.enable x) s = .next t) :
    t.regs = { Regs.reset with en := true, ext := x } := by
  rw [(Effect.bind x hen).exec_eq] at h
  cases h
  rfl

/-- Settles O17: a stale TIMEOUT is ignored, and the tag counts the RESTARTs modulo 16, from 0 after RST or a new binding. -/
theorem staleTimeoutAndItsLimit : Obligations.StaleTimeoutAndItsLimit := by
  refine ⟨fun _ _ h => exec_timeout_ignored (.inr h), fun s k => ?back, fun _ g => timerRestart_iterate_toNat rfl g, ?rebound⟩
  case back =>
    have hk : BitVec.ofNat 4 (16 * k) = 0#4 := BitVec.eq_of_toNat_eq (by simp)
    rw [timerRestart_iterate_tmoTag, hk, BitVec.add_zero]
  case rebound =>
    intro s t u x g hclose henable
    have hu := exec_enable_regs (exec_close_en hclose) henable
    exact timerRestart_iterate_toNat (congrArg Regs.tmoTag hu) g

/-! ## The gaps a frame leaves -/

/-- R84, R89, R91: outside IDLE an edge drives RESTART only at the end of a leader space, a bit pulse or a bit space. -/
theorem Effect.hits_of_restart {s : State} {i : Instr} {r : Regs} {o : Output} {ts : Timestamp} (he : Effect s i r o)
    (hi : i = .edgeRise ts ∨ i = .edgeFall ts) (hst : s.regs.st ≠ .idle) (hcmd : o.tmrCmd = 1#2) :
    ∃ k, s.hits k ts = true ∧ (s.regs.st = .als ∧ k = .ls ∨ s.regs.st = .rb ∧ (k = .bp ∨ k = .b1 ∨ k = .b0)) := by
  obtain rfl | rfl := hi
  · cases he with
    | start _ _ hals hls => exact ⟨.ls, hls, .inl ⟨hals, rfl⟩⟩
    | bit _ _ _ hrb _ hb =>
      obtain ⟨-, hb1⟩ | ⟨-, -, hb0⟩ := hb
      · exact ⟨.b1, hb1, .inr ⟨hrb, .inr (.inl rfl)⟩⟩
      · exact ⟨.b0, hb0, .inr ⟨hrb, .inr (.inr rfl)⟩⟩
    | riseError => rw [errorRecord_tmrCmd] at hcmd; cases hcmd
    | unbound | idleRise | again => cases hcmd
  · cases he with
    | leader _ _ hidle => exact absurd hidle hst
    | pulse _ _ hrb _ _ hbp => exact ⟨.bp, hbp, .inr ⟨hrb, .inl rfl⟩⟩
    | fallError => rw [errorRecord_tmrCmd] at hcmd; cases hcmd
    | unbound | noise | frame => cases hcmd

/-- Settles O50: the gap lies in the window of the category the edge hits, LS in ALS and BP, B1 or B0 in RB. -/
theorem advancingGapIsBounded : Obligations.AdvancingGapIsBounded := by
  intro s t ts hcfg hst h hcmd
  obtain ⟨i, hi, h⟩ : ∃ i, (i = .edgeRise ts ∨ i = .edgeFall ts) ∧ exec i s = .next t :=
    h.elim (fun h => ⟨_, .inl rfl, h⟩) (fun h => ⟨_, .inr rfl, h⟩)
  obtain ⟨r, o, he, rfl⟩ := exec_cases h
  obtain ⟨k, hk, hrow⟩ := he.hits_of_restart hi hst hcmd
  rw [State.hits, hcfg, classify_get_iff] at hk
  obtain ⟨hals, rfl⟩ | ⟨-, rfl | rfl | rfl⟩ := hrow <;> simp only [Windows.get, Windows.default] at hk
  · exact ⟨by omega, by omega, fun hrb => absurd (hals.symm.trans hrb) nofun⟩
  all_goals exact ⟨by omega, by omega, fun _ => by omega⟩

/-! ## The timeout as the Edge Timer delivers it -/

/-- In a system in step, the timeout the Edge Timer delivers is the armed block's own. -/
theorem System.act_presentTimeout {env : EnvParams} {y z : System} (hy : y.InStep) (h : y.act env .presentTimeout = some z) :
    y.block.Armed ∧ exec (.timeout y.block.regs.tmoTag) y.block = .next z.block := by
  obtain ⟨-, -, hsched⟩ := y.inStep_iff.1 hy
  simp only [System.act] at h
  split at h
  · cases h
  next g armedAt hpending =>
    obtain ⟨harmed, rfl⟩ := State.expected_eq_some (hsched.symm.trans (congrArg (Option.map Prod.fst) hpending))
    split at h
    · obtain ⟨t, hexec, rfl⟩ := System.feed_encode h
      exact ⟨harmed, hexec⟩
    · cases h

/-- R157: a dead timeout is delivered only while the block ignores it. -/
theorem System.act_presentLate {env : EnvParams} {y z : System} {g : Tag} {armedAt : Nat}
    (h : y.act env (.presentLate g armedAt) = some z) :
    ignoresTimeout g y.block = true ∧ exec (.timeout g) y.block = .next z.block := by
  simp only [System.act] at h
  split at h
  next hlate =>
    obtain ⟨-, -, hign⟩ := hlate
    obtain ⟨t, hexec, rfl⟩ := System.feed_encode h
    exact ⟨hign, hexec⟩
  · cases h

/-- Settles O53: the scheduled timeout is current and ends the frame; a dead one is ignored. -/
theorem deliveredTimeoutIsHonoured : Obligations.DeliveredTimeoutIsHonoured := by
  refine ⟨fun env y z hy h => ?live, fun env y z g armedAt h => ?dead⟩
  case live =>
    obtain ⟨harmed, hexec⟩ := System.act_presentTimeout hy h
    rw [exec_timeout_current harmed] at hexec
    rw [← Host.Outcome.next.inj hexec]
    exact ⟨harmed, rfl, rfl⟩
  case dead =>
    obtain ⟨hign, hexec⟩ := System.act_presentLate h
    rw [exec_timeout_ignored ((ignoresTimeout_iff g _).1 hign)] at hexec
    rw [← Host.Outcome.next.inj hexec]
    exact ⟨rfl, rfl⟩

end Sys2Proof.Machine
end

section
/-! PROOFS. The control events (spec/44_control.md R115 to R122): each clause about one event is one row of `Effect`, and the
silence after CLOSE is an induction over the steps of an unbound block. -/

namespace Sys2Proof

theorem evArg0_eq_getLsbD (w : EventWord) : evArg0 w = w.getLsbD 4 := evArg0_eq_testBit w

/-- Only OP = 0b011 decodes to ENABLE (R51). -/
theorem evOp_of_decode_enable {w : EventWord} {x : Bool} (h : decode w = .enable x) : evOp w = 3#3 := by
  obtain hop | hop | hop | hop | hop | hop | hop | hop := op_cases (evOp w)
  · cases (decode_nop hop).symm.trans h
  · rw [decode_edge hop] at h; split at h <;> cases h
  · cases (decode_timeout hop).symm.trans h
  · exact hop
  · cases (decode_setErr hop).symm.trans h
  · cases (decode_close hop).symm.trans h
  · cases (decode_rsvd6 hop).symm.trans h
  · cases (decode_rsvd7 hop).symm.trans h

end Sys2Proof

namespace Sys2Proof.Machine

/-! ## The events of an unbound block -/

/-- R121: an unbound block ignores every event but ENABLE. -/
theorem exec_unbound {i : Instr} {s : State} (hen : s.regs.en = false) (hi : ∀ x, i ≠ .enable x) :
    exec i s = .next (s.answer s.regs Output.idle) :=
  (Effect.unbound i hen hi).exec_eq

/-- R122: a second CLOSE finds the block unbound. -/
theorem exec_close_twice {s t : State} (h : exec .close s = .next t) : exec .close t = .next (t.answer t.regs Output.idle) :=
  exec_unbound (exec_close_en h) nofun

theorem decode_ne_enable {w : EventWord} (h : (Input.event w).isEnable = false) (x : Bool) : decode w ≠ .enable x :=
  fun hdec => of_decide_eq_false h (evOp_of_decode_enable hdec)

/-- A step of an unbound block whose next input, if any, is no ENABLE: the block stays unbound, and the record is idle. -/
theorem step_unbound {s : State} (hen : s.regs.en = false) (hin : ∀ x ∈ s.port.head?, x.isEnable = false) :
    ∃ t, step s = .next t ∧ t.regs.en = false ∧ t.out = Output.idle ∧ t.port = s.port.tail := by
  cases hport : s.port with
  | nil => exact ⟨s.quiet, step_idle s hport, hen, rfl, hport⟩
  | cons x rest =>
    cases x with
    | rst => exact ⟨_, step_rst s rest hport, rfl, rfl, rfl⟩
    | event w =>
      have hw : (Input.event w).isEnable = false := hin _ (by rw [hport]; rfl)
      exact ⟨_, (step_event s w rest hport).trans (exec_unbound hen (decode_ne_enable hw)), hen, rfl, rfl⟩

/-- An unbound block drives idle records until an ENABLE. -/
theorem observe_unbound (k : Nat) : ∀ s : State, s.regs.en = false → (∀ x ∈ s.port.take k, x.isEnable = false) →
    ∀ o ∈ observe k s, o = Output.idle := by
  induction k with
  | zero => exact fun _ _ _ => nofun
  | succ k ih =>
    intro s hen hin
    have hhead : ∀ x ∈ s.port.head?, x.isEnable = false :=
      fun x hx => hin x (List.mem_of_mem_head? (by rwa [List.head?_take, if_neg k.succ_ne_zero]))
    obtain ⟨t, hstep, hten, hout, hport⟩ := step_unbound hen hhead
    have htail : ∀ x ∈ t.port.take k, x.isEnable = false := by
      rw [hport]
      exact fun x hx => hin x (List.mem_of_mem_tail (by rwa [List.tail_take_eq_take_tail]))
    simp only [observe, hstep, List.mem_cons, forall_eq_or_imp]
    exact ⟨hout, ih t hten htail⟩

/-- Settles O14: CLOSE leaves the block unbound, and an unbound block drives idle records until an ENABLE. -/
theorem silenceAfterCloseUntilEnable : Obligations.SilenceAfterCloseUntilEnable := by
  refine ⟨fun s t u h h' => ?second, fun s t k h hin o ho => ?silent⟩
  case second =>
    rw [exec_close_twice h] at h'
    cases h'
    exact ⟨rfl, rfl⟩
  case silent =>
    rw [observe_unbound k t (exec_close_en h) hin o ho]
    exact Output.silent_idle

/-! ## Binding and the variant -/

/-- R116: EXT is kept, unless the block is unbound before the event, which is ENABLE, or reset by it. -/
theorem Effect.ext_cases {s : State} {i : Instr} {r : Regs} {o : Output} (he : Effect s i r o) :
    r.ext = s.regs.ext ∨ r = Regs.reset ∨ (s.regs.en = false ∧ ∃ x, i = .enable x) := by
  cases he with
  | closeArmed | closeIdle => exact .inr (.inl rfl)
  | bind x hen => exact .inr (.inr ⟨hen, x, rfl⟩)
  | _ => exact .inl rfl

/-- R82, R83: with no reference, an edge in IDLE only sets it. -/
theorem exec_first_edge {s : State} (hen : s.regs.en = true) (hst : s.regs.st = .idle) (hhave : s.regs.haveLast = false)
    (ts : Timestamp) :
    exec (.edgeRise ts) s = .next (s.answer (s.regs.edged .rising (s.timeOf ts)) Output.idle) ∧
    exec (.edgeFall ts) s = .next (s.answer (s.regs.edged .falling (s.timeOf ts)) Output.idle) :=
  ⟨(Effect.idleRise ts hen hst).exec_eq, (Effect.noise ts hen hst (.inl hhave)).exec_eq⟩

/-- Settles O10: the rows `bind` and `bindFail`, EXT over every row, and the reset values that ENABLE starts from. -/
theorem enableBindsOrIsRefused : Obligations.EnableBindsOrIsRefused := by
  refine ⟨fun _ x hen => (Effect.bind x hen).exec_eq, fun _ x hen => (Effect.bindFail x hen).exec_eq,
    fun w hop => evArg0_eq_getLsbD w ▸ decode_enable hop, ?sets, ?keeps, ?first⟩
  case sets =>
    intro i s t h hs ht
    obtain ⟨r, o, he, rfl⟩ := exec_cases h
    obtain hext | rfl | ⟨-, henable⟩ := he.ext_cases
    · exact absurd (ht.symm.trans (hext.trans hs)) nofun
    · cases ht
    · exact henable
  case keeps =>
    intro i s t h hs ht
    obtain ⟨r, o, he, rfl⟩ := exec_cases h
    obtain hext | rfl | ⟨hen, -⟩ := he.ext_cases
    · exact hext
    · cases ht
    · exact absurd (hs.symm.trans hen) nofun
  case first =>
    intro s t x ts hen h
    have ht := exec_enable_regs hen h
    exact exec_first_edge (congrArg Regs.en ht) (congrArg Regs.st ht) (congrArg Regs.haveLast ht) ts

/-! ## One event each -/

/-- Settles O8: the row `nop`. -/
theorem nopLeavesEverythingAlone : Obligations.NopLeavesEverythingAlone :=
  ⟨fun _ => Effect.nop.exec_eq, fun _ => decode_nop⟩

/-- Settles O9: the rows `rsvd6` and `rsvd7`. -/
theorem reservedOpcodesDoNothing : Obligations.ReservedOpcodesDoNothing :=
  ⟨fun _ => ⟨Effect.rsvd6.exec_eq, Effect.rsvd7.exec_eq⟩, fun _ => ⟨decode_rsvd6, decode_rsvd7⟩, rfl, rfl⟩

/-- Settles O11: the row `setErr`, and the gate of EN; writing the value already held leaves the registers as they are. -/
theorem setErrWritesOnlyErrEn : Obligations.SetErrWritesOnlyErrEn := by
  refine ⟨fun _ e hen => (Effect.setErr e hen).exec_eq, fun _ _ hen => exec_unbound hen nofun, fun s => ?held,
    fun w hop => evArg0_eq_getLsbD w ▸ decode_setErr hop⟩
  case held =>
    cases hen : s.regs.en with
    | false => exact exec_unbound hen nofun
    | true => exact (Effect.setErr s.regs.errEn hen).exec_eq

/-- Settles O12: the rows `closeArmed` and `closeIdle`; what comes after finds the block unbound. -/
theorem closeResetsAndCancels : Obligations.CloseResetsAndCancels :=
  ⟨fun _ hen hst => (Effect.closeArmed hen hst).exec_eq, fun _ hen hst => (Effect.closeIdle hen hst).exec_eq,
    fun _ hen => exec_unbound hen nofun, fun _ _ => exec_close_twice, fun _ _ => exec_unbound, fun _ => decode_close⟩

/-- Settles O13: edges, TIMEOUT and SETERR are no ENABLE. -/
theorem unboundBlockIgnoresEvents : Obligations.UnboundBlockIgnoresEvents :=
  fun _ _ _ _ hen => ⟨exec_unbound hen nofun, exec_unbound hen nofun, exec_unbound hen nofun, exec_unbound hen nofun⟩

end Sys2Proof.Machine
end

section
/-! PROOFS. Error reports (spec/60_exceptions.md R130 to R134, spec/30_encoding.md R62): what causes one, what it leaves behind, and
that nothing else depends on ERR_EN. -/

namespace Sys2Proof.Machine

/-! ## Every event and every step completes -/

/-- R60, R116: only a refused ENABLE drives BIND_FAIL. -/
theorem Effect.bindFail_iff {s : State} {i : Instr} {r : Regs} {o : Output} (he : Effect s i r o) :
    o.bindFail = true ↔ s.regs.en = true ∧ ∃ x, i = .enable x := by
  cases he with
  | bindFail x hen => exact iff_of_true rfl ⟨hen, x, rfl⟩
  | bind x hen => exact iff_of_false nofun fun ⟨hen', _⟩ => absurd (hen.symm.trans hen') nofun
  | unbound i hen hi => exact iff_of_false nofun fun ⟨_, x, hx⟩ => hi x hx
  | expire => exact iff_of_false (by rw [timeoutRecord_bindFail]; nofun) nofun
  | riseError | fallError => exact iff_of_false (by rw [errorRecord_bindFail]; nofun) nofun
  | _ => exact iff_of_false nofun nofun

theorem step_total (s : State) : ∃ t, step s = .next t := by
  cases hport : s.port with
  | nil => exact ⟨_, step_idle s hport⟩
  | cons x rest =>
    cases x with
    | rst => exact ⟨_, step_rst s rest hport⟩
    | event w =>
      obtain ⟨r, o, -, hexec⟩ := exec_effect (decode w) (s.setPort rest)
      exact ⟨_, (step_event s w rest hport).trans hexec⟩

/-- Settles O41: exec answers a row of `Effect`, of which `bindFail` alone drives BIND_FAIL; a step runs an event or is RST. -/
theorem noEventFaults : Obligations.NoEventFaults := by
  refine ⟨fun i s => ?_, step_total⟩
  obtain ⟨r, o, he, hexec⟩ := exec_effect i s
  exact ⟨_, hexec, he.bindFail_iff⟩

/-! ## What an error report says and leaves behind -/

/-- The event is a cause of the error with this code (R112, R130). -/
inductive ErrorCause (s : State) : Instr → BitVec 3 → Prop
  | expire (hst : s.regs.st ≠ .idle) : ErrorCause s (.timeout s.regs.tmoTag) 5#3
  | rise (ts : Timestamp) (e : ErrorCode) (he : RiseError s ts e) : ErrorCause s (.edgeRise ts) e.code
  | fall (ts : Timestamp) (e : ErrorCode) (he : FallError s ts e) : ErrorCause s (.edgeFall ts) e.code

/-- A cause met by a bound block ends in the record that reports its code, once a handler is registered (R134). -/
theorem ErrorCause.exec_reports {i : Instr} {s t : State} {c : BitVec 3} (hc : ErrorCause s i c) (hen : s.regs.en = true)
    (herr : s.regs.errEn = true) (h : exec i s = .next t) : t.out.errV = true ∧ t.out.errCode = c := by
  cases hc with
  | expire hst => cases (Effect.expire hen hst).exec_eq.symm.trans h; simp [herr]
  | rise ts e he => cases (Effect.riseError ts e hen he).exec_eq.symm.trans h; simp [herr]
  | fall ts e he => cases (Effect.fallError ts e hen he).exec_eq.symm.trans h; simp [herr]

/-- No row but those three reports an error. -/
theorem Effect.errorCause {s : State} {i : Instr} {r : Regs} {o : Output} (he : Effect s i r o) (herr : o.errV = true) :
    s.regs.en = true ∧ s.regs.errEn = true ∧ ErrorCause s i o.errCode := by
  cases he with
  | expire hen hst =>
    rw [timeoutRecord_errV] at herr
    simpa [hen, herr] using ErrorCause.expire hst
  | riseError ts e hen he =>
    rw [errorRecord_errV] at herr
    simpa [hen, herr] using ErrorCause.rise ts e he
  | fallError ts e hen he =>
    rw [errorRecord_errV] at herr
    simpa [hen, herr] using ErrorCause.fall ts e he
  | _ => cases herr

theorem exec_reports_iff {i : Instr} {s t : State} (h : exec i s = .next t) (c : BitVec 3) :
    t.out.errV = true ∧ t.out.errCode = c ↔ s.regs.en = true ∧ s.regs.errEn = true ∧ ErrorCause s i c := by
  refine ⟨fun ⟨herr, hcode⟩ => ?_, fun ⟨hen, herr, hc⟩ => hc.exec_reports hen herr h⟩
  obtain ⟨r, o, he, rfl⟩ := exec_cases h
  exact hcode ▸ he.errorCause herr

/-- Settles O37: a report is a cause met by a bound block with a handler (`exec_reports_iff`), and the causes are the rows of
R130: each guard of `RiseError` and `FallError` lies in one row, and each row gives such a guard. -/
theorem errorCodesNameTheirCause : Obligations.ErrorCodesNameTheirCause := by
  intro i s t c h
  rw [exec_reports_iff h]
  refine and_congr_right fun _ => and_congr_right fun _ => ⟨fun hc => ?row, ?cause⟩
  case row =>
    cases hc with
    | expire hst => simp [hst]
    | rise ts e he => cases he <;> simp [ErrorCode.code, *]
    | fall ts e he => cases he <;> simp [ErrorCode.code, *]
  case cause =>
    rintro (⟨rfl, hst, ts, rfl⟩ | ⟨rfl, hst, ts, rfl, hls, hrs⟩ | ⟨rfl, hst, ts, rfl, hpulse⟩ | ⟨rfl, hst, ts, rfl, hspace⟩ |
      ⟨rfl, hst, ⟨ts, rfl⟩ | ⟨ts, rfl, hlp, hbp⟩⟩ | ⟨rfl, hst, ⟨ts, rfl, hlp, hbp⟩, hraw⟩ | ⟨rfl, hst, rfl⟩ |
      ⟨rfl, hst, ts, rfl, hlp⟩)
    · exact .fall ts .badLeader (.leader hst)
    · exact .rise ts .badLeaderSpace (.space hst hls hrs)
    · cases hdir : s.regs.lastDir with
      | falling => exact .fall ts .badBitTiming (.twice hst hdir)
      | rising =>
        obtain ⟨hlp, hbp⟩ := hpulse.resolve_left (by simp [hdir])
        exact .fall ts .badBitTiming (.bit hst hdir hlp hbp)
    · obtain hdir | ⟨hb1, hb0⟩ := hspace
      · exact .rise ts .badBitTiming (.twice hst hdir)
      · exact .rise ts .badBitTiming (.bit hst hb1 hb0)
    · exact .rise ts .badBitTiming (.stop hst)
    · exact .fall ts .badBitTiming (.stop hst hlp hbp)
    · exact .fall ts .checksumMismatch (.checksum hst hlp hbp hraw)
    · exact .expire hst
    · obtain ⟨hst, hdir⟩ | hst := hst
      · exact .fall ts .overrun (.overrunBit hst hdir hlp)
      · exact .fall ts .overrun (.overrunStop hst hlp)

/-- Settles O38: the registers and the record of the three rows that report. -/
theorem errorReportDropsTheAttempt : Obligations.ErrorReportDropsTheAttempt := by
  intro i s t h herr
  obtain ⟨r, o, he, rfl⟩ := exec_cases h
  rw [State.answer_out] at herr ⊢
  rw [State.answer_regs]
  cases he with
  | expire hen => exact ⟨timeoutRecord_decV _, hen, .inl ⟨_, rfl, rfl, timeoutRecord_tmrCmd _⟩⟩
  | riseError ts e hen =>
    exact ⟨errorRecord_decV .., hen, .inr (.inl ⟨ts, rfl, rfl, errorRecord_tmrCmd .., errorRecord_tmrTag ..⟩)⟩
  | fallError ts e hen =>
    exact ⟨errorRecord_decV .., hen, .inr (.inr ⟨ts, rfl, rfl, errorRecord_tmrCmd .., errorRecord_tmrTag ..⟩)⟩
  | _ => cases herr

/-! ## The handler only observes

A state is compared with `State.withoutErr` of it, which meets the guard of every row that the state meets; two states that differ
in ERR_EN and the last error report alone have that state in common. -/

theorem RiseError.withoutErr {s : State} {ts : Timestamp} {e : ErrorCode} (h : RiseError s ts e) :
    RiseError s.withoutErr ts e := by
  cases h with
  | space hst hls hrs => exact .space hst hls hrs
  | twice hst hdir => exact .twice hst hdir
  | bit hst hb1 hb0 => exact .bit hst hb1 hb0
  | stop hst => exact .stop hst

theorem FallError.withoutErr {s : State} {ts : Timestamp} {e : ErrorCode} (h : FallError s ts e) :
    FallError s.withoutErr ts e := by
  cases h with
  | leader hst => exact .leader hst
  | twice hst hdir => exact .twice hst hdir
  | overrunBit hst hdir hlp => exact .overrunBit hst hdir hlp
  | bit hst hdir hlp hbp => exact .bit hst hdir hlp hbp
  | overrunStop hst hlp => exact .overrunStop hst hlp
  | stop hst hlp hbp => exact .stop hst hlp hbp
  | checksum hst hlp hbp hraw => exact .checksum hst hlp hbp hraw

/-- Without its error report, the record of an error is a CANCEL, and that of an expired timeout is idle (R112, R133). -/
theorem errorRecord_withoutErr (b : Bool) (c : BitVec 3) (g : Tag) : (errorRecord b c g).withoutErr = cancelRecord g := by
  cases b <;> rfl

theorem timeoutRecord_withoutErr (b : Bool) : (timeoutRecord b).withoutErr = Output.idle := by cases b <;> rfl

/-- Two next states of s whose registers differ in ERR_EN alone, and whose records differ in the error report alone. -/
theorem State.answer_withoutErr_congr (s : State) {r r' : Regs} {o o' : Output}
    (hr : { r' with errEn := false } = { r with errEn := false }) (ho : o'.withoutErr = o.withoutErr) :
    (s.answer r' o').withoutErr = (s.answer r o).withoutErr :=
  State.eq_of_fields rfl hr ho rfl

/-- Without a handler every row does the same, but for ERR_EN and the error report. -/
theorem Effect.withoutErr {s : State} {i : Instr} {r : Regs} {o : Output} (he : Effect s i r o) :
    ∃ r' o', Effect s.withoutErr i r' o' ∧ (s.answer r' o').withoutErr = (s.answer r o).withoutErr := by
  cases he with
  | nop => exact ⟨_, _, .nop, rfl⟩
  | rsvd6 => exact ⟨_, _, .rsvd6, rfl⟩
  | rsvd7 => exact ⟨_, _, .rsvd7, rfl⟩
  | unbound i hen hi => exact ⟨_, _, .unbound i hen hi, rfl⟩
  | bind x hen => exact ⟨_, _, .bind x hen, rfl⟩
  | bindFail x hen => exact ⟨_, _, .bindFail x hen, rfl⟩
  | setErr e hen => exact ⟨_, _, .setErr e hen, rfl⟩
  | closeArmed hen hst => exact ⟨_, _, .closeArmed hen hst, rfl⟩
  | closeIdle hen hst => exact ⟨_, _, .closeIdle hen hst, rfl⟩
  | stale g hen h => exact ⟨_, _, .stale g hen h, rfl⟩
  | expire hen hst =>
    have ho := (timeoutRecord_withoutErr false).trans (timeoutRecord_withoutErr s.regs.errEn).symm
    exact ⟨_, _, .expire hen hst, s.answer_withoutErr_congr rfl ho⟩
  | idleRise ts hen hst => exact ⟨_, _, .idleRise ts hen hst, rfl⟩
  | noise ts hen hst h => exact ⟨_, _, .noise ts hen hst h, rfl⟩
  | leader ts hen hst hhave hdir hlp => exact ⟨_, _, .leader ts hen hst hhave hdir hlp, rfl⟩
  | start ts hen hst hls => exact ⟨_, _, .start ts hen hst hls, rfl⟩
  | again ts hen hst hls hrs => exact ⟨_, _, .again ts hen hst hls hrs, rfl⟩
  | pulse ts hen hst hdir hlp hbp => exact ⟨_, _, .pulse ts hen hst hdir hlp hbp, rfl⟩
  | bit ts b hen hst hdir hb => exact ⟨_, _, .bit ts b hen hst hdir hb, rfl⟩
  | frame ts a x hen hst hlp hbp hc ha => exact ⟨_, _, .frame ts a x hen hst hlp hbp hc ha, rfl⟩
  | riseError ts e hen he =>
    have ho := (errorRecord_withoutErr false e.code _).trans (errorRecord_withoutErr s.regs.errEn e.code s.regs.tmoTag).symm
    exact ⟨_, _, .riseError ts e hen he.withoutErr, s.answer_withoutErr_congr rfl ho⟩
  | fallError ts e hen he =>
    have ho := (errorRecord_withoutErr false e.code _).trans (errorRecord_withoutErr s.regs.errEn e.code s.regs.tmoTag).symm
    exact ⟨_, _, .fallError ts e hen he.withoutErr, s.answer_withoutErr_congr rfl ho⟩

theorem exec_withoutErr {i : Instr} {s t : State} (h : exec i s = .next t) :
    ∃ t', exec i s.withoutErr = .next t' ∧ t'.withoutErr = t.withoutErr := by
  obtain ⟨r, o, he, rfl⟩ := exec_cases h
  obtain ⟨r', o', he', heq⟩ := he.withoutErr
  exact ⟨_, he'.exec_eq, heq⟩

theorem step_withoutErr {s t : State} (h : step s = .next t) :
    ∃ t', step s.withoutErr = .next t' ∧ t'.withoutErr = t.withoutErr := by
  obtain ⟨w, rest, hport, hexec⟩ | ⟨rest, hport, rfl⟩ | ⟨hport, rfl⟩ := step_cases h
  · obtain ⟨t', hexec', heq⟩ := exec_withoutErr hexec
    exact ⟨t', (step_event s.withoutErr w rest hport).trans hexec', heq⟩
  · exact ⟨_, step_rst s.withoutErr rest hport, rfl⟩
  · exact ⟨_, step_idle s.withoutErr hport, rfl⟩

/-- R134 for one step of each of two states. -/
theorem step_withoutErr_congr {s s' t t' : State} (hs : s.withoutErr = s'.withoutErr) (h : step s = .next t)
    (h' : step s' = .next t') : t.withoutErr = t'.withoutErr := by
  obtain ⟨u, hu, ht⟩ := step_withoutErr h
  obtain ⟨u', hu', ht'⟩ := step_withoutErr h'
  have huu' : u = u' := Host.Outcome.next.inj (hu.symm.trans (hs ▸ hu'))
  rw [← ht, ← ht', huu']

/-- R134 for a run, by induction over its steps. -/
theorem observe_withoutErr_congr (k : Nat) : ∀ {s s' : State}, s.withoutErr = s'.withoutErr →
    (observe k s).map Output.withoutErr = (observe k s').map Output.withoutErr := by
  induction k with
  | zero => exact fun _ => rfl
  | succ k ih =>
    intro s s' hs
    obtain ⟨t, ht⟩ := step_total s
    obtain ⟨t', ht'⟩ := step_total s'
    have hnext := step_withoutErr_congr hs ht ht'
    have hout : t.out.withoutErr = t'.out.withoutErr := congrArg State.out hnext
    simp only [observe, ht, ht', List.map_cons, hout, ih hnext]

/-- Settles O39: a report needs a handler (`Effect.errorCause`), and two states that differ in ERR_EN alone stay so step by step. -/
theorem errorHandlerOnlyObserves : Obligations.ErrorHandlerOnlyObserves := by
  refine ⟨fun e s => ?report, fun i s t h herr => ?handler, fun _ _ _ _ => step_withoutErr_congr,
    fun k s e => observe_withoutErr_congr k rfl⟩
  case report => exact State.eq_of_fields (by simp) (by simp) (by simp) (by simp)
  case handler =>
    obtain ⟨-, hhandler, -⟩ := (exec_reports_iff h _).1 ⟨herr, rfl⟩
    exact hhandler

end Sys2Proof.Machine
end

section
/-! PROOFS. An edge later than every window and the timeout it raced (spec/60_exceptions.md R140, spec/43_timeout.md R114). -/

namespace Sys2Proof

/-- The event of an edge with this direction and timestamp (R52). -/
def Dir.event (ts : Timestamp) : Dir → Instr
  | .rising => .edgeRise ts
  | .falling => .edgeFall ts

end Sys2Proof

namespace Sys2Proof.Machine

/-- R72: an interval above every window hits no category. -/
theorem hits_of_later {s : State} {ts : Timestamp} (h : ∀ k : Category, ((s.cfg.windows.get k).hi : Int) < interval ts s)
    (k : Category) : s.hits k ts = false := by
  have hk := h k
  rw [State.hits, Bool.eq_false_iff, ne_eq, classify_get_iff]
  omega

/-- R82, R83: in IDLE an edge that ends no leader pulse only sets the reference. -/
theorem exec_edge_idle {s : State} {ts : Timestamp} (d : Dir) (hen : s.regs.en = true) (hst : s.regs.st = .idle)
    (hlp : s.hits .lp ts = false) : exec (d.event ts) s = .next (s.answer (s.regs.edged d (s.timeOf ts)) Output.idle) := by
  cases d with
  | rising => exact (Effect.idleRise ts hen hst).exec_eq
  | falling => exact (Effect.noise ts hen hst (.inr (.inr hlp))).exec_eq

/-- The codes of the errors whose guards an edge with no match can meet (R86 to R93): neither OVERRUN nor CHECKSUM_MISMATCH. -/
def TimingCode (c : BitVec 3) : Prop := c = 1#3 ∨ c = 2#3 ∨ c = 3#3

section Unmatched
variable {s : State} {ts : Timestamp} (hs : s.Armed) (hmiss : ∀ k, s.hits k ts = false)
include hs hmiss

theorem exists_riseError_of_unmatched : ∃ e, RiseError s ts e ∧ TimingCode e.code := by
  cases hst : s.regs.st with
  | idle => exact absurd hst hs.2
  | als => exact ⟨_, .space hst (hmiss .ls) (hmiss .rs), .inr (.inl rfl)⟩
  | rb => exact ⟨_, .bit hst (hmiss .b1) (hmiss .b0), .inr (.inr rfl)⟩
  | asStop => exact ⟨_, .stop hst, .inr (.inr rfl)⟩

theorem exists_fallError_of_unmatched : ∃ e, FallError s ts e ∧ TimingCode e.code := by
  cases hst : s.regs.st with
  | idle => exact absurd hst hs.2
  | als => exact ⟨_, .leader hst, .inl rfl⟩
  | rb =>
    cases hdir : s.regs.lastDir with
    | falling => exact ⟨_, .twice hst hdir, .inr (.inr rfl)⟩
    | rising => exact ⟨_, .bit hst hdir (hmiss .lp) (hmiss .bp), .inr (.inr rfl)⟩
  | asStop => exact ⟨_, .stop hst (hmiss .lp) (hmiss .bp), .inr (.inr rfl)⟩

/-- An edge with no match ends the frame of an armed block in the error exit. -/
theorem exec_edge_unmatched (d : Dir) : ∃ c, TimingCode c ∧ exec (d.event ts) s =
    .next (s.answer (s.regs.edged d (s.timeOf ts)).dropped (errorRecord s.regs.errEn c s.regs.tmoTag)) := by
  cases d with
  | rising =>
    obtain ⟨e, he, hcode⟩ := exists_riseError_of_unmatched hs hmiss
    exact ⟨_, hcode, (Effect.riseError ts e hs.1 he).exec_eq⟩
  | falling =>
    obtain ⟨e, he, hcode⟩ := exists_fallError_of_unmatched hs hmiss
    exact ⟨_, hcode, (Effect.fallError ts e hs.1 he).exec_eq⟩

end Unmatched

/-- Settles O51: the edge first ends the frame in the error exit and leaves the timeout stale; the timeout first ends the frame and
leaves the edge to IDLE. Dropping the attempt and recording the edge write different registers, so the order does not show. -/
theorem edgeAndDueTimeoutCommute : Obligations.EdgeAndDueTimeoutCommute := by
  intro s e ts hs he hlate
  obtain ⟨d, rfl⟩ : ∃ d : Dir, e = d.event ts := he.elim (fun h => ⟨.rising, h⟩) (fun h => ⟨.falling, h⟩)
  have hmiss := hits_of_later hlate
  obtain ⟨c, hcode, hedge⟩ := exec_edge_unmatched hs hmiss d
  refine ⟨_, _, _, _, hedge, exec_timeout_ignored (.inr (.inl rfl)), exec_timeout_current hs,
    exec_edge_idle d hs.1 rfl (hmiss .lp), rfl, rfl, errorRecord_decV .., errorRecord_tmrCmd .., fun herr => ?code, rfl, rfl, rfl⟩
  case code =>
    rw [State.answer_out, errorRecord_errV] at herr
    rwa [State.answer_out, errorRecord_errCode, if_pos herr]

end Sys2Proof.Machine
end

section
/-! PROOFS. Dead timeouts and RST (spec/70_reset_and_hazards.md R150, R157, spec/60_exceptions.md R138; the environment is that of
log 10). -/

namespace Sys2Proof.Machine

/-! ## Dead timeouts -/

theorem System.deadUnmatched_of_not_armed {y : System} (h : ¬ y.block.Armed) : y.DeadUnmatched := fun ha => absurd ha h

/-- An event that leaves the block armed either keeps its tag, and then kills no timeout, or asks for a new one, and then the Edge
Timer gives up the dead ones of the new tag (R157). -/
theorem TimerMove.deadUnmatched_hear {i : Instr} {s t : State} (h : TimerMove i s t) {e : EdgeTimer}
    (he : System.DeadUnmatched ⟨s, e⟩) : System.DeadUnmatched ⟨t, e.hear t.out⟩ := by
  cases h with
  | restart _ hcmd _ hsent =>
    rw [System.DeadUnmatched, ← hsent]
    exact fun _ => EdgeTimer.hear_restart_dead _ _ hcmd
  | cancel _ _ _ _ _ ht | fired _ _ _ _ ht => exact System.deadUnmatched_of_not_armed ht
  | kept _ hcmd harmed htag =>
    rw [EdgeTimer.hear_none _ _ hcmd]
    intro ht
    have hs : s.Armed := harmed.1 ht
    have htag' : t.regs.tmoTag = s.regs.tmoTag := htag.resolve_right fun ⟨_, _, hns⟩ => hns hs
    exact htag'.symm ▸ he hs

theorem System.deadUnmatched_feed_event {i : Instr} {b : State} {e : EdgeTimer} {z : System}
    (h : System.feed (.event (encode i)) ⟨b, e⟩ = some z) (he : System.DeadUnmatched ⟨b, e⟩) : z.DeadUnmatched := by
  obtain ⟨t, hexec, rfl⟩ := System.feed_encode h
  exact (exec_timerMove hexec).deadUnmatched_hear he

/-- RST is always possible, and the Edge Timer forgets with it every timeout it held. -/
theorem System.act_reset (env : EnvParams) (y : System) :
    y.act env .reset = some { block := hardwareReset y.block, timer := { y.timer with pending := none, dead := [] } } :=
  System.feed_rst _

/-- No action needs the scheduled timeout for this: one that gives the block no event keeps the block and the dead timeouts, one that
does takes at most a dead timeout away first, and RST disarms the block. -/
theorem System.act_deadUnmatched {env : EnvParams} {a : EnvAction} {y z : System} (hy : y.DeadUnmatched)
    (h : y.act env a = some z) : z.DeadUnmatched := by
  cases a with
  | wait us =>
    simp only [System.act] at h
    split at h <;> cases h
    exact hy
  | transition dir =>
    simp only [System.act] at h
    split at h <;> cases h
    exact hy
  | presentEdge =>
    simp only [System.act] at h
    split at h
    · cases h
    split at h
    · cases h
    exact System.deadUnmatched_feed_event h hy
  | presentTimeout =>
    simp only [System.act] at h
    split at h
    · cases h
    split at h
    · exact System.deadUnmatched_feed_event h hy
    · cases h
  | presentLate g armedAt =>
    simp only [System.act] at h
    split at h
    · exact System.deadUnmatched_feed_event h (fun ha d hd => hy ha d (List.mem_of_mem_erase hd))
    · cases h
  | control i =>
    simp only [System.act] at h
    split at h
    · exact System.deadUnmatched_feed_event h hy
    · cases h
  | reset =>
    rw [System.act_reset] at h
    cases h
    exact System.deadUnmatched_of_not_armed (hardwareReset_not_armed _)

/-- Settles O56: at boot there is no dead timeout, and each action keeps those there are unmatched (`System.act_deadUnmatched`). -/
theorem deadTimeoutsNeverMatch : Obligations.DeadTimeoutsNeverMatch :=
  ⟨fun _ _ => nofun, fun _ _ _ _ _ hdead h => System.act_deadUnmatched hdead h⟩

/-! ## RST -/

/-- What RST leaves is the one next state of its step. -/
theorem eq_hardwareReset_of_step {s t : State} (h : step (s.present .rst) = .next t) : t = hardwareReset s := by
  rw [step_present_rst] at h
  exact (Host.Outcome.next.inj h).symm

/-- ENABLE after RST binds the block with the values of R116 and drives no output. -/
theorem exec_enable_after_reset (x : Bool) (s : State) :
    exec (.enable x) (hardwareReset s) = .next (s.answer { Regs.reset with en := true, ext := x } Output.idle) :=
  (Effect.bind x (s := hardwareReset s) rfl).exec_eq

/-- Settles O42: RST leaves the block unbound and in IDLE, where a held timeout is ignored (R113, R121), and the Edge Timer of the
closed system empty; ENABLE keeps the tag at 0, so the first RESTART sends 1. -/
theorem hardwareResetClearsEverything : Obligations.HardwareResetClearsEverything := by
  refine ⟨step_present_rst, fun s t g h => ?unbound, fun _ _ hst => exec_timeout_ignored (.inr (.inl hst)),
    fun s t u x hrst henable => ?firstRestart, fun env y z h => ?timer⟩
  case unbound =>
    obtain rfl := eq_hardwareReset_of_step h
    exact exec_timeout_ignored (.inl rfl)
  case firstRestart =>
    obtain rfl := eq_hardwareReset_of_step hrst
    rw [exec_enable_after_reset] at henable
    cases henable
    exact ⟨rfl, rfl, rfl⟩
  case timer =>
    rw [System.act_reset] at h
    cases h
    exact ⟨rfl, rfl⟩

end Sys2Proof.Machine
end
